-- ==== Sys2Proof/Word.lean ====
section
/-! DEFINITION. The words of the block (00_scope.md, 10_state.md): bytes, 32-bit words, pixels. -/

namespace Sys2Proof

/-- A stream byte, a sink byte or one channel of a pixel (R10: CHANNEL_W is 8). -/
abbrev Byte := BitVec 8

/-- A 32-bit register, stream offset or sink address (R13: LEN_W, CAP_W and ADDR_W are 32). -/
abbrev Word := BitVec 32

/-- A pixel: four unsigned 8-bit channels (R17, R20). -/
structure Pixel where
  r : Byte
  g : Byte
  b : Byte
  a : Byte
  deriving DecidableEq, Repr, Inhabited

/-- The seed pixel, `last_pixel` at the start of every decode (R21). -/
def Pixel.seed : Pixel := ⟨0, 0, 0, 255⟩

/-- The zero pixel, every cache slot at the start of every decode (R22). -/
def Pixel.zero : Pixel := ⟨0, 0, 0, 0⟩

end Sys2Proof
end

