-- ==== Sys2Proof/Config.lean ====
section
/-! DEFINITION. The implementation parameters of 00_scope.md section 5, and the values the spec leaves free. -/

namespace Sys2Proof

/-- HDR_LEN: the header is 14 bytes (R11, R70). -/
def Config.hdrLen : Nat := 14

/-- FTR_LEN: the footer is 8 bytes (R11, R73). -/
def Config.ftrLen : Nat := 8

/-- The magic "qoif" as a big-endian number (R72).
PRESUMED (ASCII code points, the spec's own mark G1), log entry 20. -/
def Config.magic : Word := 0x716F6966#32

/-- The footer as a big-endian number (R73). -/
def Config.endMarker : BitVec 64 := 0x0000000000000001#64

/-- The byte length of the CSR window (R25). -/
def Config.csrWindow : Nat := 64

/-- PIXEL_LAYOUT (R14): OPEN, with the default `RGBA8_BYTES`. The other layouts are numbered, and
`Config.otherLayout` gives each of them some bijection (log entry 3). -/
inductive PixelLayout where
  /-- r, g, b, a at byte offsets 0, 1, 2, 3 of the sink word: the default. -/
  | rgba8Bytes
  /-- Some other bijection from pixels to sink words. -/
  | other (k : Nat)
  deriving DecidableEq, Repr

/-- The bijection of layout `other k` (R142: "a bijection from pixels to 4-byte sequences"), as a
permutation of 32-bit words: from r || g || b || a to the sink bytes, the lowest address first.
Nothing more is known of it. -/
opaque Config.otherLayout : Nat → Equiv.Perm Word

/-- The value of the n-th free draw of a HOST read while BUSY (R41), log entry 8. -/
opaque Config.freeWord : Nat → Word

/-- What the platform answers to HOST's read outside the CSR window (R26: "the platform decides"),
by draw number, log entry 7. -/
opaque Config.platformWord : Nat → Word

/-- A free pixel, by draw number: a cache slot after a reset (R42, R163), log entry 11. -/
opaque Config.freePixel : Nat → Pixel

/-- A free bit, by draw number: whether a sink word of an abandoned command is the old one (R164),
log entry 10. -/
opaque Config.freeBit : Nat → Bool

/-- What a sink byte that nothing has written holds, by address, log entry 9. -/
opaque Config.unwrittenByte : Nat → Byte

end Sys2Proof
end

