-- ==== Sys2Proof/Machine/State.lean ====
section
/-! DEFINITION. The state of the block (10_state.md), the platform parts its step needs (R46), the model's own fields,
the reasons a step can stop, and the state after reset. -/

namespace Sys2Proof.Machine

/-- STATUS.PHASE (R30). Values 5, 6 and 7 never occur. -/
inductive Phase where
  | idle | sniff | header | ops | footer
  deriving DecidableEq, Repr

/-- STATUS.ERR (R147). Codes 5 to 15 are never produced. -/
inductive ErrKind where
  | noError | formatMismatch | truncatedInput | invalidEndMarker | allocationFailure
  deriving DecidableEq, Repr

/-- The width of a HOST access to the CSR window (R26). -/
inductive AccessWidth where
  | byte | halfword | word
  deriving DecidableEq, Repr

/-- One turn of HOST (R7, R67, R163). -/
inductive Turn where
  /-- HOST does nothing now; BLK may take its step. -/
  | blk
  /-- A read at a platform address (R26). -/
  | csrRead (width : AccessWidth) (addr : Nat)
  /-- A write at a platform address (R26). -/
  | csrWrite (width : AccessWidth) (addr : Nat) (value : Word)
  /-- Places the stream byte S[off], or delivers it to a waiting read (R50, R51, R65). -/
  | streamWrite (off : Word) (value : Byte)
  /-- HOST reads a sink byte (R67); the width is the model's, log entry 29. -/
  | sinkRead (addr : Word)
  /-- HOST writes a sink byte (R67); the width is the model's, log entry 29. -/
  | sinkWrite (addr : Word) (value : Byte)
  /-- The reset input is asserted (R163, R164). -/
  | rstAssert
  /-- The reset input is released (R163). -/
  | rstRelease
  deriving DecidableEq, Repr

/-- A memory: bytes by address, addresses strictly rising. An unlisted address holds no value. -/
abbrev Memory := List Host.Cell

/-- The whole machine. -/
structure State where
  /-- CTRL.IE (R28). -/
  ie : Bool
  /-- STATUS.DONE (R29). -/
  done : Bool
  /-- STATUS.OK (R29). -/
  ok : Bool
  /-- STATUS.MATCH (R29). -/
  matched : Bool
  /-- STATUS.ERR (R29, R147). -/
  err : ErrKind
  /-- STATUS.DETAIL (R29, R148). -/
  detail : BitVec 4
  /-- STATUS.PHASE (R29, R30); STATUS.BUSY is (phase ≠ idle). -/
  phase : Phase
  /-- IN_LEN (R31). -/
  inLen : Word
  /-- OUT_BASE bits 31:2 (R32); bits 1:0 are hard-wired to 0. -/
  outBaseHi : BitVec 30
  /-- OUT_CAP (R33). -/
  outCap : Word
  /-- POS (R24, R34). -/
  pos : Word
  /-- WIDTH (R35). -/
  width : Word
  /-- HEIGHT (R36). -/
  height : Word
  /-- HDR_INFO.CHANNELS (R37). -/
  channels : Byte
  /-- HDR_INFO.COLORSPACE (R37). -/
  colorspace : Byte
  /-- TOTAL = TOTAL_HI:TOTAL_LO (R38). -/
  total : BitVec 64
  /-- OUT_INDEX (R39). -/
  outIndex : Word
  /-- last_pixel (R43), mirrored in LAST_PIXEL (R40). -/
  lastPixel : Pixel
  /-- The colour cache (R42). -/
  cache : Vector Pixel 64
  /-- The level of the reset input (R163). -/
  rst : Bool
  /-- The bytes of S the stream port can answer (R48, R50, R51). -/
  stream : Memory
  /-- The sink memory (R53). -/
  sink : Memory
  /-- PIXEL_LAYOUT (R14). -/
  layout : PixelLayout
  /-- CSR_BASE (R15). -/
  csrBase : Nat
  /-- The model's own: HOST's coming turns, the next one first (log entry 4). -/
  inbox : List Turn
  /-- The model's own: what HOST's last read returned (log entry 7). -/
  hostData : Word
  /-- The model's own: how many free values have been drawn (log entry 8). -/
  draws : Nat
  /-- The model's own: the sink when the running command began (R164, log entry 10). -/
  sinkBefore : Memory
  deriving DecidableEq, Repr

/-- Reasons for a fault: there are none. The spec's errors are next states (R146), and an unanswered
InRead holds BLK without stopping the machine (R51). -/
inductive Fault where
  deriving DecidableEq, Repr

/-- Reasons for a refusal. -/
inductive Refusal where
  /-- Raised by an arm of `exec` that has no meaning yet (none has this form now); safe. -/
  | notModelled (mnemonic : String)
  /-- Raised by a HOST access to the CSR window that is not an aligned word (R26: "A model refuses
  such an access"); safe. -/
  | csrBadAccess
  /-- Raised by a HOST access to the CSR window while `rst` is asserted (R164: "a model refuses it"); safe. -/
  | accessDuringReset
  /-- Raised by HOST changing a byte of S while BUSY = 1 (R65: "A model refuses a run"); safe. -/
  | streamChangedWhileBusy
  /-- Raised by a HOST access to the running command's sink words while BUSY = 1 (R65, R145); safe. -/
  | sinkAccessWhileBusy
  deriving DecidableEq, Repr

/-- The machine right after reset (R163, 10_state.md section 5). The cache is unspecified there: 64
zero pixels, DESIGN CHOICE, log entry 1. CSR_BASE is OPEN: 0, DESIGN CHOICE, log entry 2. -/
def State.reset : State where
  ie := false
  done := false
  ok := false
  matched := false
  err := .noError
  detail := 0
  phase := .idle
  inLen := 0
  outBaseHi := 0
  outCap := 0
  pos := 0
  width := 0
  height := 0
  channels := 0
  colorspace := 0
  total := 0
  outIndex := 0
  lastPixel := Pixel.zero
  cache := Vector.replicate 64 Pixel.zero
  rst := false
  stream := []
  sink := []
  layout := .rgba8Bytes
  csrBase := 0
  inbox := []
  hostData := 0
  draws := 0
  sinkBefore := []

end Sys2Proof.Machine
end

