-- ==== Sys2Proof/Machine/Flags.lean ====
section
/-! DEFINITION. STATUS, CTRL and the interrupt output: the words HOST reads, and every way the STATUS fields are
written (10_state.md R28 to R30, 40_host_commands.md, 60_exceptions.md). -/

namespace Sys2Proof.Machine

/-- STATUS.BUSY (R29, R30): 1 exactly when PHASE is not IDLE. -/
def State.busy (s : State) : Bool := decide (s.phase ≠ .idle)

/-- The PHASE codes (R30). -/
def Phase.code : Phase → BitVec 3
  | .idle => 0
  | .sniff => 1
  | .header => 2
  | .ops => 3
  | .footer => 4

/-- The ERR codes (R147). -/
def ErrKind.code : ErrKind → BitVec 4
  | .noError => 0
  | .formatMismatch => 1
  | .truncatedInput => 2
  | .invalidEndMarker => 3
  | .allocationFailure => 4

/-- The (ERR, DETAIL) pairs of R148; no other pair occurs. -/
def legalResult (e : ErrKind) (d : BitVec 4) : Bool :=
  match e with
  | .noError => d.toNat = 0
  | .formatMismatch => d.toNat = 1
  | .truncatedInput => 1 ≤ d.toNat ∧ d.toNat ≤ 5
  | .invalidEndMarker => 1 ≤ d.toNat ∧ d.toNat ≤ 8
  | .allocationFailure => d.toNat = 1 ∨ d.toNat = 2

/-- STATUS as HOST reads it (R29): bits 31:15 reserved, PHASE, DETAIL, ERR, MATCH, OK, DONE, BUSY. -/
def State.statusWord (s : State) : Word :=
  0#17 ++ s.phase.code ++ s.detail ++ s.err.code ++
    BitVec.ofBool s.matched ++ BitVec.ofBool s.ok ++ BitVec.ofBool s.done ++ BitVec.ofBool s.busy

/-- CTRL as HOST reads it (R28): only IE reads back. -/
def State.ctrlWord (s : State) : Word := 0#29 ++ BitVec.ofBool s.ie ++ 0#2

/-- The interrupt output (R155): STATUS.DONE & CTRL.IE. -/
def State.irq (s : State) : Bool := s.done && s.ie

/-- A CTRL write sets IE, at any PHASE (R92). -/
def setIe (ie : Bool) (s : State) : State := { s with ie := ie }

/-- The STATUS fields a command's start clears (R88, R89); MATCH is kept. -/
def clearResult (s : State) : State := { s with done := false, ok := false, err := .noError, detail := 0 }

/-- MATCH, written only by the sniff unit (R97). -/
def setMatch (m : Bool) (s : State) : State := { s with matched := m }

end Sys2Proof.Machine
end

