-- ==== Sys2Proof/Syntax.lean ====
section
/-! DEFINITION. The instructions: one constructor per row of spec/opcode_table.json. -/

namespace Sys2Proof

/-- The twelve rows of the opcode table. An opcode holds the raw bit fields of its bytes (R82: every
operand field is an unsigned bit field); the meanings subtract the biases. -/
inductive Instr where
  /-- RGB (R75): three operand bytes. -/
  | rgb (r g b : Byte)
  /-- RGBA (R76): four operand bytes. -/
  | rgba (r g b a : Byte)
  /-- INDEX (R77): the cache slot t[5:0]. -/
  | index (k : BitVec 6)
  /-- DIFF (R78): the fields t[5:4], t[3:2], t[1:0]. -/
  | diff (rr gg bb : BitVec 2)
  /-- LUMA (R79): the fields t[5:0], b2[7:4], b2[3:0]. -/
  | luma (gg : BitVec 6) (rr bb : BitVec 4)
  /-- RUN (R80): the field t[5:0]; 62 and 63 encode RGB and RGBA. -/
  | run (n : BitVec 6)
  /-- HEADER (R70): the header unit's 14 input bytes. The magic is kept as read, because the unit's
  meaning includes the magic check (R102, R103; log entry 16). -/
  | header (magic width height : Word) (channels colorspace : Byte)
  /-- FOOTER (R73): the footer unit's 8 input bytes as one big-endian number, kept as read, because
  the unit's meaning includes the comparison (R136; log entry 16). -/
  | footer (marker : BitVec 64)
  /-- CMD_SNIFF (R88): a CTRL write with bits 1:0 = 01; bit 2 goes to IE. -/
  | cmdSniff (ie : Bool)
  /-- CMD_DECODE (R89): a CTRL write with bits 1:0 = 10; bit 2 goes to IE. -/
  | cmdDecode (ie : Bool)
  /-- CMD_NONE_BOTH (R90): a CTRL write with bits 1:0 = 11; bit 2 goes to IE. -/
  | cmdNoneBoth (ie : Bool)
  /-- ACK_DONE (R93): a STATUS write with bit 1 = 1. -/
  | ackDone
  deriving DecidableEq, Repr

end Sys2Proof
end

