-- ==== Sys2Proof/WellFormed.lean ====
section
/-! DEFINITION. Which terms of `Instr` are rows of the opcode table with legal field values. -/

namespace Sys2Proof

/-- The row's fixed bits and field ranges: RUN's field is 0..61 (R80), HEADER's bytes 0..3 are the
magic (R72), FOOTER's bytes are the end marker (R73). Every other field value is legal (R84). -/
def Instr.wellFormed : Instr → Bool
  | .run n => decide (n.toNat < 62)
  | .header magic _ _ _ _ => decide (magic = Config.magic)
  | .footer marker => decide (marker = Config.endMarker)
  | .rgb _ _ _ => true
  | .rgba _ _ _ _ => true
  | .index _ => true
  | .diff _ _ _ => true
  | .luma _ _ _ => true
  | .cmdSniff _ => true
  | .cmdDecode _ => true
  | .cmdNoneBoth _ => true
  | .ackDone => true

end Sys2Proof
end

