-- ==== Sys2Proof/Decode.lean ====
section
/-! DEFINITION. Decoding and encoding (30_encoding.md; 40_host_commands.md for HOST's writes), and the words of
spec/opcode_table.json as the host numbers them. -/

namespace Sys2Proof

/-! ## Bytes and words -/

/-- Four bytes, most significant first, as a 32-bit number (R71, R55). -/
def be32 (b0 b1 b2 b3 : Byte) : Word := b0 ++ b1 ++ b2 ++ b3

/-- Byte `j` of a 32-bit number, counted from the most significant (j = 0..3). -/
def wordByte (w : Word) (j : Nat) : Byte := w.extractLsb' (24 - 8 * j) 8

/-- The four bytes of a 32-bit number, most significant first. -/
def wordBytes (w : Word) : List Byte := [wordByte w 0, wordByte w 1, wordByte w 2, wordByte w 3]

/-- Eight bytes, most significant first, as a 64-bit number (R73). -/
def be64 (b0 b1 b2 b3 b4 b5 b6 b7 : Byte) : BitVec 64 :=
  b0 ++ b1 ++ b2 ++ b3 ++ b4 ++ b5 ++ b6 ++ b7

/-- Byte `j` of a 64-bit number, counted from the most significant (j = 0..7): f[j] of R73. -/
def markerByte (m : BitVec 64) (j : Nat) : Byte := m.extractLsb' (56 - 8 * j) 8

/-- The eight bytes of a 64-bit number, most significant first. -/
def markerBytes (m : BitVec 64) : List Byte :=
  [markerByte m 0, markerByte m 1, markerByte m 2, markerByte m 3,
   markerByte m 4, markerByte m 5, markerByte m 6, markerByte m 7]

/-! ## Dispatch -/

/-- The six opcodes of R74. -/
inductive Opcode where
  | rgb | rgba | index | diff | luma | run
  deriving DecidableEq, Repr

/-- `Dispatch(t)` (R81): 0xFE and 0xFF first, then the top two bits. -/
def dispatch (t : Byte) : Opcode :=
  if t = 0xFE#8 then .rgb
  else if t = 0xFF#8 then .rgba
  else if t.extractLsb' 6 2 = 0#2 then .index
  else if t.extractLsb' 6 2 = 1#2 then .diff
  else if t.extractLsb' 6 2 = 2#2 then .luma
  else .run

/-- `Len(op)` (R74): the bytes of an opcode, its tag included. -/
def Opcode.length : Opcode → Nat
  | .rgb => 4
  | .rgba => 5
  | .index => 1
  | .diff => 1
  | .luma => 2
  | .run => 1

/-! ## Decoding -/

/-- Which unit's bytes a piece of the stream is (R69). The same bytes mean different things to the
three units: the footer is recognised by position only (R139). -/
inductive StreamUnit where
  | header | opcode | footer
  deriving DecidableEq, Repr

/-- What can be decoded: bytes of the stream that a unit is about to take, or a 32-bit HOST write at
an offset of the CSR window. -/
inductive Code where
  | unit (u : StreamUnit) (bytes : List Byte)
  | csrWrite (offset : Nat) (value : Word)
  deriving DecidableEq, Repr

/-- Why a piece of code is no instruction. -/
inductive Reject where
  /-- Fewer than 14 header bytes (R102: the unit raises TruncatedInput(1)). -/
  | headerShort
  /-- No tag byte (R111: the unit raises TruncatedInput(2)). -/
  | tagMissing
  /-- A tag without all its operand bytes (R113: the unit raises TruncatedInput(3)). -/
  | operandMissing
  /-- Fewer than 8 footer bytes (R137: the unit raises TruncatedInput(5)). -/
  | footerShort
  /-- A CTRL write with bits 1:0 = 00: no command is requested (R28), only IE is set (R92). -/
  | noCommand
  /-- A STATUS write with bit 1 = 0: nothing is acknowledged (R93). -/
  | noAcknowledge
  /-- A write to a register that is neither CTRL nor STATUS. -/
  | notCommandRegister
  deriving DecidableEq, Repr

/-- The header's 14 bytes (R70, R71); what follows them is handed back. -/
def decodeHeader : List Byte → Except Reject (Instr × List Byte)
  | h0 :: h1 :: h2 :: h3 :: h4 :: h5 :: h6 :: h7 :: h8 :: h9 :: h10 :: h11 :: h12 :: h13 :: rest =>
    .ok (.header (be32 h0 h1 h2 h3) (be32 h4 h5 h6 h7) (be32 h8 h9 h10 h11) h12 h13, rest)
  | _ => .error .headerShort

/-- The footer's 8 bytes (R73). -/
def decodeFooter : List Byte → Except Reject (Instr × List Byte)
  | f0 :: f1 :: f2 :: f3 :: f4 :: f5 :: f6 :: f7 :: rest =>
    .ok (.footer (be64 f0 f1 f2 f3 f4 f5 f6 f7), rest)
  | _ => .error .footerShort

/-- The operands of an opcode whose tag is `t` (R75 to R80, R82). -/
def decodeOperands (t : Byte) (bs : List Byte) : Except Reject (Instr × List Byte) :=
  match dispatch t, bs with
  | .rgb, r :: g :: b :: rest => .ok (.rgb r g b, rest)
  | .rgba, r :: g :: b :: a :: rest => .ok (.rgba r g b a, rest)
  | .index, rest => .ok (.index (t.extractLsb' 0 6), rest)
  | .diff, rest => .ok (.diff (t.extractLsb' 4 2) (t.extractLsb' 2 2) (t.extractLsb' 0 2), rest)
  | .luma, b2 :: rest => .ok (.luma (t.extractLsb' 0 6) (b2.extractLsb' 4 4) (b2.extractLsb' 0 4), rest)
  | .run, rest => .ok (.run (t.extractLsb' 0 6), rest)
  | _, _ => .error .operandMissing

/-- One opcode (R74): the tag, then its operands. Every tag decodes (R84). -/
def decodeOpcode : List Byte → Except Reject (Instr × List Byte)
  | [] => .error .tagMissing
  | t :: bs => decodeOperands t bs

/-- A HOST write to the CSR window as a host command (R88, R89, R90, R93). Reserved bits of the value
are ignored (R27, R28), and so are the other bits of a STATUS write (R93). -/
def decodeWrite (offset : Nat) (value : Word) : Except Reject Instr :=
  if offset = 0x00 then
    if value.extractLsb' 0 2 = 1#2 then .ok (.cmdSniff (value.getLsbD 2))
    else if value.extractLsb' 0 2 = 2#2 then .ok (.cmdDecode (value.getLsbD 2))
    else if value.extractLsb' 0 2 = 3#2 then .ok (.cmdNoneBoth (value.getLsbD 2))
    else .error .noCommand
  else if offset = 0x04 then
    if value.getLsbD 1 then .ok .ackDone else .error .noAcknowledge
  else .error .notCommandRegister

/-- The decoder: total, an instruction and the bytes after it, or a named rejection. -/
def decode : Code → Except Reject (Instr × List Byte)
  | .unit .header bytes => decodeHeader bytes
  | .unit .opcode bytes => decodeOpcode bytes
  | .unit .footer bytes => decodeFooter bytes
  | .csrWrite offset value => (decodeWrite offset value).map fun i => (i, [])

/-! ## Encoding -/

/-- The CTRL value with the command bits `c` and the enable `ie` (R28); reserved bits 0. -/
def ctrlValue (c : BitVec 2) (ie : Bool) : Word := 0#29 ++ BitVec.ofBool ie ++ c

/-- The code of an instruction, from the tables of 30_encoding.md and 40_host_commands.md. -/
def encode : Instr → Code
  | .rgb r g b => .unit .opcode [0xFE#8, r, g, b]
  | .rgba r g b a => .unit .opcode [0xFF#8, r, g, b, a]
  | .index k => .unit .opcode [0#2 ++ k]
  | .diff rr gg bb => .unit .opcode [1#2 ++ rr ++ gg ++ bb]
  | .luma gg rr bb => .unit .opcode [2#2 ++ gg, rr ++ bb]
  | .run n => .unit .opcode [3#2 ++ n]
  | .header magic width height channels colorspace =>
    .unit .header (wordBytes magic ++ wordBytes width ++ wordBytes height ++ [channels, colorspace])
  | .footer marker => .unit .footer (markerBytes marker)
  | .cmdSniff ie => .csrWrite 0x00 (ctrlValue 1#2 ie)
  | .cmdDecode ie => .csrWrite 0x00 (ctrlValue 2#2 ie)
  | .cmdNoneBoth ie => .csrWrite 0x00 (ctrlValue 3#2 ie)
  | .ackDone => .csrWrite 0x04 0x00000002#32

/-- The stream bytes of an encoded instruction; a HOST write has none. -/
def Code.bytes : Code → List Byte
  | .unit _ bytes => bytes
  | .csrWrite _ _ => []

/-! ## The words of the opcode table -/

/-- The first `n` bytes of a number whose bit 0 is the least significant bit of the first byte. -/
def tableBytes : Nat → Nat → List Byte
  | 0, _ => []
  | n + 1, w => BitVec.ofNat 8 w :: tableBytes n (w / 256)

/-- The code that a word of spec/opcode_table.json stands for (log entry 18). The table numbers a
row's bits but not the place the row is read at, and rows of different places share words. A word of
112 bits is a header, one of 64 bits a footer. One of 16 bits is LUMA when its tag is LUMA's, and
otherwise the footer. One of 32 bits whose tag is not RGB's, and one of 8 bits whose value is 1, 2 or
3, is a CTRL write when its command bits are not 00. Every other word is an opcode. -/
def tableCode (nbits w : Nat) : Code :=
  if nbits = 112 then .unit .header (tableBytes 14 w)
  else if nbits = 64 then .unit .footer (tableBytes 8 w)
  else if nbits = 16 ∧ dispatch (BitVec.ofNat 8 w) ≠ .luma then .unit .footer (tableBytes 8 w)
  else if (nbits = 8 ∧ w < 4 ∨ nbits = 32 ∧ dispatch (BitVec.ofNat 8 w) ≠ .rgb) ∧ w % 4 ≠ 0 then
    .csrWrite 0x00 (BitVec.ofNat 32 w)
  else .unit .opcode (tableBytes 5 w)

/-- The instruction the decoder reads from a table word. -/
def decodeTableWord (nbits w : Nat) : Option Instr :=
  match decode (tableCode nbits w) with
  | .ok (i, _) => some i
  | .error _ => none

end Sys2Proof
end

