-- ==== Sys2Proof/Machine/Operands.lean ====
section
/-! DEFINITION. What an instruction computes from its operands: deltas, channel sums, the hash, the pixel's words, and
the sink address of a pixel (44_rgba_unpacker.md, 45_color_cache.md, 48_pixel_writer.md). -/

namespace Sys2Proof.Machine

/-- A field minus its bias (R82: excess-B code). -/
def excess {w : Nat} (field : BitVec w) (bias : Int) : Int := field.toNat - bias

/-- `u8(x)` (R16): x mod 256, also for negative x. -/
def u8 (x : Int) : Byte := BitVec.ofInt 8 x

/-- `AddDelta(p, dr, dg, db)` (R121): lane by lane, modulo 256, alpha kept. -/
def addDelta (p : Pixel) (dr dg db : Int) : Pixel :=
  ⟨u8 (p.r.toNat + dr), u8 (p.g.toNat + dg), u8 (p.b.toNat + db), p.a⟩

/-- RGB's pixel (R122): alpha comes from `last_pixel`. -/
def rgbPixel (last : Pixel) (r g b : Byte) : Pixel := ⟨r, g, b, last.a⟩

/-- DIFF's pixel (R124): three deltas of field - 2. -/
def diffPixel (last : Pixel) (rr gg bb : BitVec 2) : Pixel :=
  addDelta last (excess rr 2) (excess gg 2) (excess bb 2)

/-- LUMA's pixel (R125): dg = field - 32, and dr, db biased by dg. -/
def lumaPixel (last : Pixel) (gg : BitVec 6) (rr bb : BitVec 4) : Pixel :=
  addDelta last (excess rr 8 + excess gg 32) (excess gg 32) (excess bb 8 + excess gg 32)

/-- RUN's emission count (R133): field + 1. -/
def runLength (n : BitVec 6) : Nat := n.toNat + 1

/-- The hash sum 3r + 5g + 7b + 11a, exact (R127). -/
def hashSum (p : Pixel) : Nat := p.r.toNat * 3 + p.g.toNat * 5 + p.b.toNat * 7 + p.a.toNat * 11

/-- `hash(p)` (R127): the cache slot of a pixel, the sum mod 64. -/
def pixelHash (p : Pixel) : BitVec 6 := BitVec.ofNat 6 (hashSum p)

/-- r || g || b || a, the numeric packing of LAST_PIXEL (R40), independent of PIXEL_LAYOUT. -/
def packWord (p : Pixel) : Word := p.r ++ p.g ++ p.b ++ p.a

/-- `Pack(p)` under a PIXEL_LAYOUT (R142), as the word whose most significant byte is the sink byte at
offset 0. -/
def layoutWord (layout : PixelLayout) (p : Pixel) : Word :=
  match layout with
  | .rgba8Bytes => packWord p
  | .other k => Config.otherLayout k (packWord p)

/-- OUT_BASE as a register (R32): bits 1:0 read 0. -/
def State.outBase (s : State) : Word := s.outBaseHi ++ 0#2

/-- The sink address of pixel index i (R141): OUT_BASE + 4*i. In a run it never passes 2^32 - 4
(R107); in a state that no run reaches it wraps (log entry 14). -/
def sinkAddr (base : Word) (i : Nat) : Word := base + BitVec.ofNat 32 (4 * i)

/-- TOTAL (R106): the exact 64-bit product. -/
def totalOf (width height : Word) : BitVec 64 := width.setWidth 64 * height.setWidth 64

/-- The 0-based index of the first footer byte that differs from the end marker (R136), if any. -/
def firstMismatch (marker : BitVec 64) : Option Nat :=
  (List.range Config.ftrLen).find? fun j => markerByte marker j ≠ markerByte Config.endMarker j

end Sys2Proof.Machine
end

