-- ==== Sys2Proof/Machine/Ops.lean ====
section
/-! DEFINITION. The operations the meanings share: memory, the colour cache, raising an error and completing, the
commit of an opcode, the header unit's parts, and the start of a command. -/

namespace Sys2Proof.Machine

/-! ## Memory -/

/-- The canonical form: addresses strictly rising, all in the 32-bit space (R13). An unlisted address
holds no value, so no entry can equal what an unlisted address reads as. -/
abbrev Memory.wf (m : Memory) : Prop :=
  m.Pairwise (fun x y => x.1 < y.1) ∧ ∀ c ∈ m, c.1 < 2 ^ 32

/-- The byte at an address, if one was ever put there. -/
def Memory.read : Memory → Nat → Option Byte
  | [], _ => none
  | (a, b) :: m, k => if a = k then some b else Memory.read m k

/-- Puts a byte at an address. -/
def Memory.write : Memory → Nat → Byte → Memory
  | [], k, b => [(k, b)]
  | (a, c) :: m, k, b =>
    if k < a then (k, b) :: (a, c) :: m
    else if k = a then (k, b) :: m
    else (a, c) :: Memory.write m k b

/-- Takes the byte at an address away. -/
def Memory.erase : Memory → Nat → Memory
  | [], _ => []
  | (a, c) :: m, k => if a = k then m else (a, c) :: Memory.erase m k

/-- `MemWrite(addr, 4, v)` (R53): the four bytes at addr to addr+3, v's most significant byte first
(v is `layoutWord`, so this is PIXEL_LAYOUT's byte order, R56). -/
def Memory.writeWord (m : Memory) (addr : Word) (v : Word) : Memory :=
  (((m.write addr.toNat (wordByte v 0)).write (addr + 1).toNat (wordByte v 1)).write
    (addr + 2).toNat (wordByte v 2)).write (addr + 3).toNat (wordByte v 3)

/-- Makes the byte at an address what it is in another memory, present or not. -/
def Memory.copyByte (m src : Memory) (a : Nat) : Memory :=
  match src.read a with
  | some b => m.write a b
  | none => m.erase a

/-- Makes the word at an address what it is in another memory. -/
def Memory.copyWord (m src : Memory) (addr : Word) : Memory :=
  (((m.copyByte src addr.toNat).copyByte src (addr + 1).toNat).copyByte
    src (addr + 2).toNat).copyByte src (addr + 3).toNat

/-- `n` bytes from offset `off` on, or none if the port has no answer for one of them (R48, R51). -/
def readBytes (m : Memory) (off : Nat) : Nat → Option (List Byte)
  | 0 => some []
  | n + 1 =>
    match m.read off, readBytes m (off + 1) n with
    | some b, some bs => some (b :: bs)
    | _, _ => none

/-! ## The pixel writer (48_pixel_writer.md) -/

/-- `PixelWrite(i, p)` for `n` consecutive indices from `i`, in increasing order (R116, R141); `v` is
the packed pixel. -/
def writePixels (base : Word) (v : Word) : Nat → Nat → Memory → Memory
  | _, 0, m => m
  | i, n + 1, m => writePixels base v (i + 1) n (m.writeWord (sinkAddr base i) v)

/-! ## The colour cache (45_color_cache.md) -/

/-- `CacheLookup(k)` (R128). -/
def cacheLookup (s : State) (k : BitVec 6) : Pixel := s.cache[k.toNat]'k.isLt

/-- `CacheStore(p)` (R129): slot hash(p), unconditionally. -/
def cacheStore (cache : Vector Pixel 64) (p : Pixel) : Vector Pixel 64 :=
  cache.set (pixelHash p).toNat p (pixelHash p).isLt

/-! ## Ends of a command -/

/-- `raise E(d)` (R146): taking an exception on this hardware. It records ERR and DETAIL, clears OK,
stops BLK and sets DONE; every other register keeps its value. -/
def raiseErr (e : ErrKind) (d : BitVec 4) (s : State) : State :=
  { s with err := e, detail := d, ok := false, phase := .idle, done := true }

/-- `Complete()` (R95). -/
def complete (s : State) : State :=
  { s with err := .noError, detail := 0, ok := true, phase := .idle, done := true }

/-- HOST's acknowledgement (R93). There is no return from an error and no resume (R153): this, or a new
command, is all that follows a raise. -/
def acknowledge (s : State) : State := { s with done := false }

/-! ## Opcodes (43_tag_dispatcher.md) -/

/-- `Commit(px, n, p_next)` (R116), with `p_next = POS + len`. -/
def commit (px : Pixel) (n len : Nat) (s : State) : State :=
  let next := s.outIndex + BitVec.ofNat 32 n
  { s with
    sink := writePixels s.outBase (layoutWord s.layout px) s.outIndex.toNat n s.sink
    outIndex := next
    cache := cacheStore s.cache px
    lastPixel := px
    pos := s.pos + BitVec.ofNat 32 len
    phase := if next.toNat = s.total.toNat then .footer else s.phase }

/-- The opcode unit (R110) of an opcode of `len` bytes that resolves to `n` copies of `px`: the checks
of R111, R113 and R115 in that order (R150), then the commit. -/
def opcodeUnit (len : Nat) (px : Pixel) (n : Nat) (s : State) : State :=
  if s.inLen.toNat ≤ s.pos.toNat then raiseErr .truncatedInput 2 s
  else if s.inLen.toNat < s.pos.toNat + len then raiseErr .truncatedInput 3 s
  else if s.total.toNat < s.outIndex.toNat + n then raiseErr .truncatedInput 4 s
  else commit px n len s

/-! ## The header unit's parts (42_header_parser.md) -/

/-- The field load (R104, R106). -/
def loadHeader (width height : Word) (channels colorspace : Byte) (s : State) : State :=
  { s with
    width := width
    height := height
    channels := channels
    colorspace := colorspace
    total := totalOf width height }

/-- The allocation check on a loaded header (R107): the detail of the AllocationFailure, if it fails. -/
def allocationCheck (s : State) : Option (BitVec 4) :=
  if s.outCap.toNat < s.total.toNat then some 1
  else if 2 ^ 32 < s.outBase.toNat + 4 * s.total.toNat then some 2
  else none

/-- The initialisation of the decode state (R108, R109). -/
def initDecode (s : State) : State :=
  { s with
    cache := Vector.replicate 64 Pixel.zero
    lastPixel := Pixel.seed
    outIndex := 0
    pos := BitVec.ofNat 32 Config.hdrLen
    phase := if s.total.toNat = 0 then .footer else .ops }

/-! ## The start of a command (40_host_commands.md) -/

/-- CMD_SNIFF's start (R88), when PHASE is IDLE; else nothing (R91). -/
def startSniff (s : State) : State :=
  if s.busy then s else { clearResult s with phase := .sniff }

/-- CMD_DECODE's start (R89), when PHASE is IDLE; else nothing (R91). -/
def startDecode (s : State) : State :=
  if s.busy then s
  else
    { clearResult s with
      pos := 0
      outIndex := 0
      width := 0
      height := 0
      channels := 0
      colorspace := 0
      total := 0
      phase := .header
      sinkBefore := s.sink }

end Sys2Proof.Machine
end

