-- ==== Sys2Proof/Machine/Framing.lean ====
section
/-! DEFINITION. The meanings of HEADER and FOOTER (42_header_parser.md, 47_footer_validator.md). -/

namespace Sys2Proof.Machine

/-- HEADER (R102): the length check, the magic check, the field load, the allocation check and the
initialisation, in that order (R150). -/
def execHeader (magic width height : Word) (channels colorspace : Byte) (s : State) :
    Host.Outcome State Fault Refusal :=
  if s.inLen.toNat < Config.hdrLen then .next (raiseErr .truncatedInput 1 s)
  else if magic ≠ Config.magic then .next (raiseErr .formatMismatch 1 s)
  else
    let loaded := loadHeader width height channels colorspace s
    match allocationCheck loaded with
    | some d => .next (raiseErr .allocationFailure d loaded)
    | none => .next (initDecode loaded)

/-- FOOTER (R136, R137): the length check, the comparison, then the completion with POS past the
footer (R140). -/
def execFooter (marker : BitVec 64) (s : State) : Host.Outcome State Fault Refusal :=
  if s.inLen.toNat < s.pos.toNat + Config.ftrLen then .next (raiseErr .truncatedInput 5 s)
  else
    match firstMismatch marker with
    | some j => .next (raiseErr .invalidEndMarker (BitVec.ofNat 4 (j + 1)) s)
    | none => .next (complete { s with pos := s.pos + BitVec.ofNat 32 Config.ftrLen })

end Sys2Proof.Machine
end

