-- ==== Sys2Proof/Machine/HostCommands.lean ====
section
/-! DEFINITION. The meanings of HOST's commands (40_host_commands.md). -/

namespace Sys2Proof.Machine

/-- CMD_SNIFF (R88, R91, R92). -/
def execCmdSniff (ie : Bool) (s : State) : Host.Outcome State Fault Refusal :=
  .next (startSniff (setIe ie s))

/-- CMD_DECODE (R89, R91, R92). -/
def execCmdDecode (ie : Bool) (s : State) : Host.Outcome State Fault Refusal :=
  .next (startDecode (setIe ie s))

/-- CMD_NONE_BOTH (R90, R92): no command; IE is set. -/
def execCmdNoneBoth (ie : Bool) (s : State) : Host.Outcome State Fault Refusal :=
  .next (setIe ie s)

/-- ACK_DONE (R93). -/
def execAckDone (s : State) : Host.Outcome State Fault Refusal :=
  .next (acknowledge s)

end Sys2Proof.Machine
end

