-- ==== Sys2Proof/Machine/Opcodes.lean ====
section
/-! DEFINITION. The meanings of the six opcodes (44_rgba_unpacker.md, 45_color_cache.md, 46_run_expander.md). Each is the
opcode unit of R110 on what the opcode resolves to (R114). -/

namespace Sys2Proof.Machine

/-- RGB (R122). -/
def execRgb (r g b : Byte) (s : State) : Host.Outcome State Fault Refusal :=
  .next (opcodeUnit 4 (rgbPixel s.lastPixel r g b) 1 s)

/-- RGBA (R123). -/
def execRgba (r g b a : Byte) (s : State) : Host.Outcome State Fault Refusal :=
  .next (opcodeUnit 5 ⟨r, g, b, a⟩ 1 s)

/-- INDEX (R131). -/
def execIndex (k : BitVec 6) (s : State) : Host.Outcome State Fault Refusal :=
  .next (opcodeUnit 1 (cacheLookup s k) 1 s)

/-- DIFF (R124). -/
def execDiff (rr gg bb : BitVec 2) (s : State) : Host.Outcome State Fault Refusal :=
  .next (opcodeUnit 1 (diffPixel s.lastPixel rr gg bb) 1 s)

/-- LUMA (R125). -/
def execLuma (gg : BitVec 6) (rr bb : BitVec 4) (s : State) : Host.Outcome State Fault Refusal :=
  .next (opcodeUnit 2 (lumaPixel s.lastPixel gg rr bb) 1 s)

/-- RUN (R133). -/
def execRun (n : BitVec 6) (s : State) : Host.Outcome State Fault Refusal :=
  .next (opcodeUnit 1 s.lastPixel (runLength n) s)

end Sys2Proof.Machine
end

