-- ==== Sys2Proof/Machine/Dispatch.lean ====
section
/-! DEFINITION. The meaning of every instruction: one arm per constructor of Instr. -/

namespace Sys2Proof.Machine

def exec (i : Instr) (s : State) : Host.Outcome State Fault Refusal :=
  match i with
  | .rgb r g b => Sys2Proof.Machine.execRgb r g b s
  | .rgba r g b a => Sys2Proof.Machine.execRgba r g b a s
  | .index k => Sys2Proof.Machine.execIndex k s
  | .diff rr gg bb => Sys2Proof.Machine.execDiff rr gg bb s
  | .luma gg rr bb => Sys2Proof.Machine.execLuma gg rr bb s
  | .run n => Sys2Proof.Machine.execRun n s
  | .header magic width height channels colorspace => Sys2Proof.Machine.execHeader magic width height channels colorspace s
  | .footer marker => Sys2Proof.Machine.execFooter marker s
  | .cmdSniff ie => Sys2Proof.Machine.execCmdSniff ie s
  | .cmdDecode ie => Sys2Proof.Machine.execCmdDecode ie s
  | .cmdNoneBoth ie => Sys2Proof.Machine.execCmdNoneBoth ie s
  | .ackDone => Sys2Proof.Machine.execAckDone s

end Sys2Proof.Machine
end

