-- ==== Sys2Proof/Machine/Fetch.lean ====
section
/-! DEFINITION. BLK's side of a step: which unit is due, what the stream port gives it, and the unit itself
(00_scope.md R8, 41_format_sniffer.md, 43_tag_dispatcher.md R110); and placing an instruction where the next step takes it. -/

namespace Sys2Proof.Machine

/-- What BLK does at its turn. -/
inductive Due where
  /-- PHASE = IDLE: BLK takes no step (R7, R162). -/
  | quiet
  /-- An InRead the unit needs has not been answered: BLK holds (R51, R158). -/
  | waiting
  /-- The sniff unit, with its result (R97). -/
  | sniff (m : Bool)
  /-- The unit's bytes do not all lie in S: TruncatedInput with this detail, and nothing more is read
  (R49, R102, R111, R113, R137). -/
  | short (detail : BitVec 4)
  /-- A header, opcode or footer with all its bytes. -/
  | instr (i : Instr)
  deriving DecidableEq, Repr

/-- The `n` bytes of a unit from `off` on, read and decoded. (The last case cannot arise: `n` bytes
are enough for the decoder.) -/
def fetchUnit (u : StreamUnit) (detail : BitVec 4) (off n : Nat) (s : State) : Due :=
  match readBytes s.stream off n with
  | none => .waiting
  | some bytes =>
    match decode (.unit u bytes) with
    | .ok (i, _) => .instr i
    | .error _ => .short detail

/-- The sniff (R97, R99): offsets 0 to 3 against the magic, nothing read when IN_LEN < 4. It waits for
all four bytes, also when one that is there already differs, DESIGN CHOICE, log entry 28. -/
def dueSniff (s : State) : Due :=
  if s.inLen.toNat < 4 then .sniff false
  else
    match readBytes s.stream 0 4 with
    | none => .waiting
    | some bytes => .sniff (decide (bytes = wordBytes Config.magic))

/-- The opcode fetch (R110, R111, R113): the tag, its length, then the whole opcode. -/
def dueOpcode (s : State) : Due :=
  if s.inLen.toNat ≤ s.pos.toNat then .short 2
  else
    match s.stream.read s.pos.toNat with
    | none => .waiting
    | some t =>
      if s.inLen.toNat < s.pos.toNat + (dispatch t).length then .short 3
      else fetchUnit .opcode 3 s.pos.toNat (dispatch t).length s

/-- Which unit is due (R30), and what its reads give. -/
def due (s : State) : Due :=
  match s.phase with
  | .idle => .quiet
  | .sniff => dueSniff s
  | .header =>
    if s.inLen.toNat < Config.hdrLen then .short 1 else fetchUnit .header 1 0 Config.hdrLen s
  | .ops => dueOpcode s
  | .footer =>
    if s.inLen.toNat < s.pos.toNat + Config.ftrLen then .short 5
    else fetchUnit .footer 5 s.pos.toNat Config.ftrLen s

/-- The sniff unit (R97): MATCH, then Complete(). -/
def sniffUnit (m : Bool) (s : State) : State := complete (setMatch m s)

/-- One unit of BLK (R8). -/
def blkUnit (s : State) : Host.Outcome State Fault Refusal :=
  match due s with
  | .quiet => .next s
  | .waiting => .next s
  | .sniff m => .next (sniffUnit m s)
  | .short d => .next (raiseErr .truncatedInput d s)
  | .instr i => exec i s

/-- BLK's turn: while `rst` is asserted it takes no step (R163). -/
def blkTurn (s : State) : Host.Outcome State Fault Refusal :=
  if s.rst then .next s else blkUnit s

/-! ## Placing an instruction (log entry 18) -/

/-- Puts consecutive bytes into a memory. -/
def placeBytes (m : Memory) (off : Nat) : List Byte → Memory
  | [] => m
  | b :: bs => placeBytes (m.write off b) (off + 1) bs

/-- The state in which the very next step takes `c`: a HOST write is HOST's only coming turn, a
header lies at offset 0, an opcode or a footer at offset 14 with its unit due. An opcode gets an image
with room for the longest RUN. -/
def placeCode (c : Code) (s : State) : State :=
  match c with
  | .csrWrite offset value =>
    { s with rst := false, inbox := [.csrWrite .word (s.csrBase + offset) value] }
  | .unit .header bytes =>
    { s with
      rst := false
      inbox := []
      phase := .header
      pos := 0
      inLen := BitVec.ofNat 32 bytes.length
      stream := placeBytes s.stream 0 bytes }
  | .unit .opcode bytes =>
    { s with
      rst := false
      inbox := []
      phase := .ops
      pos := 14
      inLen := BitVec.ofNat 32 (14 + bytes.length)
      total := s.outIndex.setWidth 64 + 62
      stream := placeBytes s.stream 14 bytes }
  | .unit .footer bytes =>
    { s with
      rst := false
      inbox := []
      phase := .footer
      pos := 14
      inLen := BitVec.ofNat 32 (14 + bytes.length)
      stream := placeBytes s.stream 14 bytes }

end Sys2Proof.Machine
end

