-- ==== Sys2Proof/Machine/HostPort.lean ====
section
/-! DEFINITION. HOST's side of a step: the CSR window (10_state.md R25 to R41), the stream and the sink as HOST may touch
them (20_memory.md R65, R67), and the reset input (70_reset_and_hazards.md R163, R164). -/

namespace Sys2Proof.Machine

/-! ## The CSR window -/

/-- The offset of a platform address in the window (R15, R25), if it lies there. An access goes by its
first byte alone: a wide access that starts below the window and reaches into it counts as outside,
DESIGN CHOICE, log entry 27. -/
def csrOffset (s : State) (addr : Nat) : Option Nat :=
  if s.csrBase ≤ addr ∧ addr < s.csrBase + Config.csrWindow then some (addr - s.csrBase) else none

/-- HDR_INFO (R37): bits 31:16 read 0. -/
def State.hdrInfo (s : State) : Word := 0#16 ++ s.colorspace ++ s.channels

/-- The registers of the window (R25); the reserved ones read 0 (R27). -/
def csrValue (s : State) (off : Nat) : Word :=
  match off with
  | 0x00 => s.ctrlWord
  | 0x04 => s.statusWord
  | 0x08 => s.inLen
  | 0x0C => s.outBase
  | 0x10 => s.outCap
  | 0x14 => s.pos
  | 0x18 => s.width
  | 0x1C => s.height
  | 0x20 => s.hdrInfo
  | 0x24 => s.total.extractLsb' 0 32
  | 0x28 => s.total.extractLsb' 32 32
  | 0x2C => s.outIndex
  | 0x30 => packWord s.lastPixel
  | _ => 0

/-- The registers that read as an unspecified value while BUSY = 1 (R41): 0x14 to 0x30. -/
def isResultRegister (off : Nat) : Bool := decide (0x14 ≤ off ∧ off ≤ 0x30)

/-- A HOST read of the window (R26, R41). -/
def csrRead (off : Nat) (s : State) : State :=
  if s.busy && isResultRegister off then
    { s with hostData := Config.freeWord s.draws, draws := s.draws + 1 }
  else { s with hostData := csrValue s off }

/-- A configuration register's write, taken only while BUSY = 0 (R94). -/
def whileIdle (s t : State) : State := if s.busy then s else t

/-- A HOST write that is no command: IE alone (R92), the configuration registers (R31, R32, R33, R94),
and the writes that are ignored (R27, R93). -/
def csrWritePlain (off : Nat) (v : Word) (s : State) : State :=
  match off with
  | 0x00 => setIe (v.getLsbD 2) s
  | 0x08 => whileIdle s { s with inLen := v }
  | 0x0C => whileIdle s { s with outBaseHi := v.extractLsb' 2 30 }
  | 0x10 => whileIdle s { s with outCap := v }
  | _ => s

/-- A HOST write to the window: a host command runs as its instruction, any other write by itself. -/
def csrWrite (off : Nat) (v : Word) (s : State) : Host.Outcome State Fault Refusal :=
  match decode (.csrWrite off v) with
  | .ok (i, _) => exec i s
  | .error _ => .next (csrWritePlain off v s)

/-- The checks on a HOST access to the window: not while `rst` is asserted (R164), and an aligned word
only (R26). -/
def csrGuard (w : AccessWidth) (off : Nat) (s : State) : Option Refusal :=
  if s.rst then some .accessDuringReset
  else if w = .word ∧ off % 4 = 0 then none
  else some .csrBadAccess

/-- A HOST read at a platform address. Outside the window it is not the block's: the platform answers
(R26, log entry 7). No platform address is a sink address: HOST reaches the sink by `sinkRead` only,
DESIGN CHOICE, log entry 26. -/
def hostRead (w : AccessWidth) (addr : Nat) (s : State) : Host.Outcome State Fault Refusal :=
  match csrOffset s addr with
  | none => .next { s with hostData := Config.platformWord s.draws, draws := s.draws + 1 }
  | some off =>
    match csrGuard w off s with
    | some r => .refused r
    | none => .next (csrRead off s)

/-- A HOST write at a platform address. Outside the window the block does not decode it (R26), and no
platform address is a sink address: HOST reaches the sink by `sinkWrite` only, DESIGN CHOICE, log
entry 26. -/
def hostWrite (w : AccessWidth) (addr : Nat) (v : Word) (s : State) :
    Host.Outcome State Fault Refusal :=
  match csrOffset s addr with
  | none => .next s
  | some off =>
    match csrGuard w off s with
    | some r => .refused r
    | none => csrWrite off v s

/-! ## The stream and the sink -/

/-- HOST places a stream byte, one a turn (DESIGN CHOICE, log entry 29). While BUSY it may deliver a byte the port had not answered (R51), but
not change one of S (R50, R65). -/
def streamWrite (off : Word) (b : Byte) (s : State) : Host.Outcome State Fault Refusal :=
  if s.busy ∧ off.toNat < s.inLen.toNat ∧ s.stream.read off.toNat ≠ none ∧
      s.stream.read off.toNat ≠ some b then
    .refused .streamChangedWhileBusy
  else .next { s with stream := s.stream.write off.toNat b }

/-- How many sink words from OUT_BASE on belong to BLK while BUSY: OUT_CAP by R145, TOTAL by R65, so the
larger. (TOTAL is the larger only in a sniff after another command's header, log entry 12.) -/
def ownedWords (s : State) : Nat := max s.outCap.toNat s.total.toNat

/-- A HOST access to a sink byte that belongs to the running command (R65, R145). -/
def sinkOwned (s : State) (a : Word) : Bool :=
  s.busy && decide (s.outBase.toNat ≤ a.toNat ∧ a.toNat < s.outBase.toNat + 4 * ownedWords s)

/-- HOST reads a sink byte (R67); one that nothing has written holds an unknown value (log entry 9). The
spec gives HOST's access no width: one byte a turn, zero-extended in what HOST holds, is the model's,
DESIGN CHOICE, log entry 29. -/
def sinkRead (a : Word) (s : State) : Host.Outcome State Fault Refusal :=
  if sinkOwned s a then .refused .sinkAccessWhileBusy
  else
    .next { s with
      hostData := ((s.sink.read a.toNat).getD (Config.unwrittenByte a.toNat)).setWidth 32 }

/-- HOST writes a sink byte; one byte a turn, DESIGN CHOICE, log entry 29. -/
def sinkWrite (a : Word) (b : Byte) (s : State) : Host.Outcome State Fault Refusal :=
  if sinkOwned s a then .refused .sinkAccessWhileBusy
  else .next { s with sink := s.sink.write a.toNat b }

/-! ## Reset -/

/-- The registers at their reset values (R163). The cache is unspecified: 64 free pixels (log entry 11). -/
def resetRegisters (s : State) : State :=
  { s with
    ie := false
    done := false
    ok := false
    matched := false
    err := .noError
    detail := 0
    phase := .idle
    inLen := 0
    outBaseHi := 0
    outCap := 0
    pos := 0
    width := 0
    height := 0
    channels := 0
    colorspace := 0
    total := 0
    outIndex := 0
    lastPixel := Pixel.zero
    cache := Vector.ofFn fun k => Config.freePixel (s.draws + k.val)
    draws := s.draws + 64
    sinkBefore := [] }

/-- BLK's units one after another, until the command ends or the fuel does (R120 bounds them). -/
def runAhead : Nat → State → State
  | 0, s => s
  | fuel + 1, s =>
    if s.phase = .idle then s
    else
      match blkUnit s with
      | .next t => runAhead fuel t
      | .fault _ => s
      | .refused _ => s

/-- The sink as the running command would leave it, with no further turn of HOST. -/
def commandSink (s : State) : Memory := (runAhead (2 + s.inLen.toNat) { s with inbox := [] }).sink

/-- The words 0 to n - 1 of a command's range, each the word from before the command or the command's,
by a free bit a word (R164). -/
def mixWords (base : Word) (draws : Nat) (before after : Memory) : Nat → Memory → Memory
  | 0, m => m
  | n + 1, m =>
    (mixWords base draws before after n m).copyWord
      (if Config.freeBit (draws + n) then before else after) (sinkAddr base n)

/-- What an abandoned command leaves in the sink (R164, log entry 10). Before the header unit's check
passes nothing has been written (R107), and a sniff writes nothing (R54). -/
def abandon (s : State) : State :=
  match s.phase with
  | .ops | .footer =>
    { s with
      sink := mixWords s.outBase s.draws s.sinkBefore (commandSink s) s.total.toNat s.sink
      draws := s.draws + s.total.toNat }
  | .idle | .sniff | .header => s

/-- `rst` is asserted: the running command, if any, is abandoned and the reset values replace every
register (R164). -/
def rstAssert (s : State) : State :=
  if s.rst then s else { resetRegisters (abandon s) with rst := true }

/-- `rst` is released: the state is that of R163. -/
def rstRelease (s : State) : State :=
  if s.rst then { resetRegisters s with rst := false } else s

/-! ## HOST's turn -/

/-- One turn of HOST, already taken off the inbox. -/
def hostTurn (t : Turn) (s : State) : Host.Outcome State Fault Refusal :=
  match t with
  | .blk => blkTurn s
  | .csrRead w addr => hostRead w addr s
  | .csrWrite w addr v => hostWrite w addr v s
  | .streamWrite off b => streamWrite off b s
  | .sinkRead a => sinkRead a s
  | .sinkWrite a b => sinkWrite a b s
  | .rstAssert => .next (rstAssert s)
  | .rstRelease => .next (rstRelease s)

end Sys2Proof.Machine
end

