-- ==== Sys2Proof/Machine/Step.lean ====
section
/-! DEFINITION. One step of the machine: HOST's next turn, or, when HOST has none, BLK's (R7, R8, R169). -/

namespace Sys2Proof.Machine

/-- One step. A HOST turn leaves the inbox; a turn `blk`, and an empty inbox, let BLK move. -/
def step (s : State) : Host.Outcome State Fault Refusal :=
  match s.inbox with
  | [] => blkTurn s
  | t :: rest => hostTurn t { s with inbox := rest }

/-- The state whose very next step runs the instruction of a table word (log entry 18). -/
def State.withFetchWord (s : State) (nbits w : Nat) : State := placeCode (tableCode nbits w) s

end Sys2Proof.Machine
end

