-- ==== Sys2Proof/Machine/Assembler.lean ====
section
/-! DEFINITION. The assembler of 30_encoding.md R86 and R87: items, and the text they are written in (log entry 23). -/

namespace Sys2Proof.Machine

/-- One item of an assembler program (R86), with its operands as the text gives them. -/
inductive AsmItem where
  | header (w h c cs : Int)
  | rgb (r g b : Int)
  | rgba (r g b a : Int)
  | index (k : Int)
  | diff (dr dg db : Int)
  | luma (dg drg dbg : Int)
  | run (n : Int)
  | footer
  | bytes (vs : List Int)
  /-- The pseudo-instruction RUNX (R87). -/
  | runx (n : Int)
  deriving DecidableEq, Repr

/-- An operand in `lo..hi` (R86). -/
def inRange (lo hi x : Int) : Bool := decide (lo ≤ x ∧ x ≤ hi)

/-- An operand as a field of `w` bits, the bias added (R82 read backwards). -/
def asField (w : Nat) (bias x : Int) : BitVec w := BitVec.ofInt w (x + bias)

/-- The bytes of an item if every operand is in range; an operand out of range is refused, never
wrapped into another opcode (R86). -/
def assembleItem : AsmItem → Option (List Byte)
  | .header w h c cs =>
    if inRange 0 (2 ^ 32 - 1) w && inRange 0 (2 ^ 32 - 1) h && inRange 0 255 c && inRange 0 255 cs then
      some (encode (.header Config.magic (asField 32 0 w) (asField 32 0 h) (asField 8 0 c) (asField 8 0 cs))).bytes
    else none
  | .rgb r g b =>
    if inRange 0 255 r && inRange 0 255 g && inRange 0 255 b then
      some (encode (.rgb (asField 8 0 r) (asField 8 0 g) (asField 8 0 b))).bytes
    else none
  | .rgba r g b a =>
    if inRange 0 255 r && inRange 0 255 g && inRange 0 255 b && inRange 0 255 a then
      some (encode (.rgba (asField 8 0 r) (asField 8 0 g) (asField 8 0 b) (asField 8 0 a))).bytes
    else none
  | .index k => if inRange 0 63 k then some (encode (.index (asField 6 0 k))).bytes else none
  | .diff dr dg db =>
    if inRange (-2) 1 dr && inRange (-2) 1 dg && inRange (-2) 1 db then
      some (encode (.diff (asField 2 2 dr) (asField 2 2 dg) (asField 2 2 db))).bytes
    else none
  | .luma dg drg dbg =>
    if inRange (-32) 31 dg && inRange (-8) 7 drg && inRange (-8) 7 dbg then
      some (encode (.luma (asField 6 32 dg) (asField 4 8 drg) (asField 4 8 dbg))).bytes
    else none
  | .run n => if inRange 1 62 n then some (encode (.run (asField 6 (-1) n))).bytes else none
  | .footer => some (encode (.footer Config.endMarker)).bytes
  | .bytes vs => if vs.all (inRange 0 255) then some (vs.map (asField 8 0)) else none
  | .runx n =>
    if 1 ≤ n then
      some (List.replicate (n.toNat / 62) (3#2 ++ 61#6) ++
        if n.toNat % 62 = 0 then [] else (encode (.run (BitVec.ofNat 6 (n.toNat % 62 - 1)))).bytes)
    else none

/-- A program: its items' bytes one after another, refused if one item is. -/
def assemble : List AsmItem → Option (List Byte)
  | [] => some []
  | x :: xs =>
    match assembleItem x, assemble xs with
    | some bs, some rest => some (bs ++ rest)
    | _, _ => none

/-! ## The text -/

/-- Blanks between the parts of a line. -/
def isBlank (c : Char) : Bool := c = ' ' || c = '\t' || c = '\r'

/-- A text without the blanks at its ends. -/
def trim (t : List Char) : List Char := ((t.dropWhile isBlank).reverse.dropWhile isBlank).reverse

/-- The pieces of a text between the occurrences of a character. -/
def splitAtChar (c : Char) : List Char → List (List Char)
  | [] => [[]]
  | x :: xs =>
    if x = c then [] :: splitAtChar c xs
    else
      match splitAtChar c xs with
      | [] => [[x]]
      | w :: ws => (x :: w) :: ws

/-- A digit of a base up to 16; both cases of the letters. -/
def digitValue (base : Nat) (c : Char) : Option Nat :=
  let n := c.toNat
  let d := if 48 ≤ n ∧ n ≤ 57 then n - 48 else if 97 ≤ n ∧ n ≤ 102 then n - 87
    else if 65 ≤ n ∧ n ≤ 70 then n - 55 else 16
  if d < base then some d else none

/-- The digits of a number, most significant first, after the value so far. -/
def digitsValue (base : Nat) : Nat → List Char → Option Nat
  | acc, [] => some acc
  | acc, c :: cs =>
    match digitValue base c with
    | some d => digitsValue base (acc * base + d) cs
    | none => none

/-- A number without a sign: hexadecimal after `0x`, else decimal (R86). -/
def parseUnsigned : List Char → Option Nat
  | [] => none
  | ['0', 'x'] => none
  | '0' :: 'x' :: cs => digitsValue 16 0 cs
  | cs => digitsValue 10 0 cs

/-- A number, with a minus sign for the negative deltas. -/
def parseNumber : List Char → Option Int
  | '-' :: cs => (parseUnsigned cs).map fun n => -(n : Int)
  | cs => (parseUnsigned cs).map fun n => (n : Int)

/-- Operands separated by commas. -/
def parseNumbers : List (List Char) → Option (List Int)
  | [] => some []
  | t :: ts =>
    match parseNumber (trim t), parseNumbers ts with
    | some n, some ns => some (n :: ns)
    | _, _ => none

/-- The operands of an item; none at all for an empty text. -/
def parseOperands (t : List Char) : Option (List Int) :=
  if trim t = [] then some [] else parseNumbers (splitAtChar ',' t)

/-- An item by its name and operands (R86, R87). -/
def itemOf (name : List Char) (operands : List Int) : Option AsmItem :=
  match name, operands with
  | ['.', 'h', 'e', 'a', 'd', 'e', 'r'], [w, h, c, cs] => some (.header w h c cs)
  | ['R', 'G', 'B'], [r, g, b] => some (.rgb r g b)
  | ['R', 'G', 'B', 'A'], [r, g, b, a] => some (.rgba r g b a)
  | ['I', 'N', 'D', 'E', 'X'], [k] => some (.index k)
  | ['D', 'I', 'F', 'F'], [dr, dg, db] => some (.diff dr dg db)
  | ['L', 'U', 'M', 'A'], [dg, drg, dbg] => some (.luma dg drg dbg)
  | ['R', 'U', 'N'], [n] => some (.run n)
  | ['.', 'f', 'o', 'o', 't', 'e', 'r'], [] => some .footer
  | ['.', 'b', 'y', 't', 'e'], v :: vs => some (.bytes (v :: vs))
  | ['R', 'U', 'N', 'X'], [n] => some (.runx n)
  | _, _ => none

/-- The bytes of one line: its comment dropped, an empty line has none. -/
def assembleLine (line : List Char) : Option (List Byte) :=
  let body := trim (line.takeWhile fun c => c != ';')
  let name := body.takeWhile fun c => !isBlank c
  if body = [] then some []
  else
    match parseOperands (body.drop name.length) with
    | none => none
    | some operands =>
      match itemOf name operands with
      | none => none
      | some item => assembleItem item

/-- The bytes of some lines, refused if one line is. -/
def assembleLines : List (List Char) → Option (List Byte)
  | [] => some []
  | line :: lines =>
    match assembleLine line, assembleLines lines with
    | some bs, some rest => some (bs ++ rest)
    | _, _ => none

/-- A program text, one item a line (R86). -/
def assembleText (text : List Char) : Option (List Byte) := assembleLines (splitAtChar '\n' text)

end Sys2Proof.Machine
end

