-- ==== Sys2Proof/Safety.lean ====
section
/-! DEFINITION. What the spec says of every state a run can reach: the invariant that claims are stated with. -/

namespace Sys2Proof.Machine

/-- A decode is past its header unit and not at its end: opcodes or the footer are due. -/
def State.decoding (s : State) : Prop := s.phase = .ops ∨ s.phase = .footer

/-- The invariant of the machine. Each field cites the rule that says it. -/
structure State.Inv (s : State) : Prop where
  /-- The stream's canonical form. -/
  stream_wf : s.stream.wf
  /-- The sink's canonical form. -/
  sink_wf : s.sink.wf
  /-- The canonical form of the sink as it was. -/
  before_wf : s.sinkBefore.wf
  /-- R38: TOTAL is WIDTH times HEIGHT. -/
  total_eq : s.total = totalOf s.width s.height
  /-- R39: OUT_INDEX never exceeds TOTAL. -/
  index_le : s.outIndex.toNat ≤ s.total.toNat
  /-- R89, R102: while the header unit is due, what CMD_DECODE cleared is still 0. -/
  header_clear : s.phase = .header →
    s.pos = 0 ∧ s.outIndex = 0 ∧ s.width = 0 ∧ s.height = 0 ∧ s.channels = 0 ∧ s.colorspace = 0
  /-- R30: while an opcode is due, OUT_INDEX < TOTAL. -/
  ops_index : s.phase = .ops → s.outIndex.toNat < s.total.toNat
  /-- R136: while the footer is due, OUT_INDEX = TOTAL. -/
  footer_index : s.phase = .footer → s.outIndex.toNat = s.total.toNat
  /-- R107: after the allocation check the image fits the sink and the address space. -/
  fits : s.decoding → s.total.toNat ≤ s.outCap.toNat ∧ s.outBase.toNat + 4 * s.total.toNat ≤ 2 ^ 32
  /-- R24: POS never passes the end of S; after the header it is at least 14. -/
  pos_in : s.decoding → 14 ≤ s.pos.toNat ∧ s.pos.toNat ≤ s.inLen.toNat
  /-- R88, R89: while a command runs, DONE, OK, ERR and DETAIL are clear. -/
  busy_clear : s.phase ≠ .idle → s.done = false ∧ s.ok = false ∧ s.err = .noError ∧ s.detail = 0
  /-- R148: only the table's pairs of ERR and DETAIL occur. -/
  result_legal : legalResult s.err s.detail = true
  /-- R29, R95, R146: a completed command has OK = 1 exactly when ERR is NONE. -/
  done_ok : s.done = true → (s.ok = true ↔ s.err = .noError)
  /-- R119: once a pixel is out, cache[hash(last_pixel)] is last_pixel until the decode ends. -/
  cache_last : s.decoding → s.outIndex ≠ 0 → cacheLookup s (pixelHash s.lastPixel) = s.lastPixel
  /-- R163: while `rst` is asserted no command runs. -/
  rst_idle : s.rst = true → s.phase = .idle

end Sys2Proof.Machine
end

