-- ==== Sys2Proof/Certificates/Slice0/Obligations.lean ====
section
/-! DEFINITION. The statements for the provers, from the numbered rules of spec/. -/

namespace Sys2Proof.Claims

open Sys2Proof.Machine

/-! ## What statements are said with -/

/-- `t` is what a step or an instruction answers. -/
abbrev Answers (o : Host.Outcome State Fault Refusal) (t : State) : Prop := o = .next t

/-- The configuration registers and the enable (R28, R31, R32, R33) are as before. -/
structure SameParams (s t : State) : Prop where
  ie : t.ie = s.ie
  inLen : t.inLen = s.inLen
  outBaseHi : t.outBaseHi = s.outBaseHi
  outCap : t.outCap = s.outCap

/-- The STATUS fields other than PHASE (R29) are as before. -/
structure SameStatus (s t : State) : Prop where
  done : t.done = s.done
  ok : t.ok = s.ok
  matched : t.matched = s.matched
  err : t.err = s.err
  detail : t.detail = s.detail

/-- The header registers (R35 to R38) are as before. -/
structure SameHeader (s t : State) : Prop where
  width : t.width = s.width
  height : t.height = s.height
  channels : t.channels = s.channels
  colorspace : t.colorspace = s.colorspace
  total : t.total = s.total

/-- POS, OUT_INDEX, last_pixel and the cache (R34, R39, R42, R43) are as before. -/
structure SameDatapath (s t : State) : Prop where
  pos : t.pos = s.pos
  outIndex : t.outIndex = s.outIndex
  lastPixel : t.lastPixel = s.lastPixel
  cache : t.cache = s.cache

/-- The reset input, the parameters (R14, R15, R163), the stream and the model's own fields (log
entries 4, 7, 8) are as before. -/
structure SamePlatform (s t : State) : Prop where
  rst : t.rst = s.rst
  layout : t.layout = s.layout
  csrBase : t.csrBase = s.csrBase
  inbox : t.inbox = s.inbox
  hostData : t.hostData = s.hostData
  draws : t.draws = s.draws
  stream : t.stream = s.stream

/-- Every byte of the sink reads as before, and so does the sink as it was before the command. -/
structure SameSink (s t : State) : Prop where
  sink : ∀ a, t.sink.read a = s.sink.read a
  before : t.sinkBefore = s.sinkBefore

/-- What `raise E(d)` leaves (R146), and that it leaves all else as it was (R151). -/
structure Raised (s t : State) (e : ErrKind) (d : Nat) : Prop where
  err : t.err = e
  detail : t.detail.toNat = d
  ok : t.ok = false
  phase : t.phase = .idle
  done : t.done = true
  matched : t.matched = s.matched
  params : SameParams s t
  header : SameHeader s t
  datapath : SameDatapath s t
  platform : SamePlatform s t
  sink : SameSink s t

/-- What `Complete()` leaves (R95) beside POS and MATCH, and that it leaves all else as it was. -/
structure Completed (s t : State) : Prop where
  err : t.err = .noError
  detail : t.detail = 0
  ok : t.ok = true
  phase : t.phase = .idle
  done : t.done = true
  params : SameParams s t
  header : SameHeader s t
  outIndex : t.outIndex = s.outIndex
  lastPixel : t.lastPixel = s.lastPixel
  cache : t.cache = s.cache
  platform : SamePlatform s t
  sink : SameSink s t

/-- What the commit of an opcode of `len` bytes leaves when it resolves to `n` copies of `px` (R116,
R129, R141), and that it leaves all else as it was. -/
structure Committed (s t : State) (px : Pixel) (n len : Nat) : Prop where
  lastPixel : t.lastPixel = px
  cache_slot : cacheLookup t (pixelHash px) = px
  cache_rest : ∀ k, k ≠ pixelHash px → cacheLookup t k = cacheLookup s k
  index : t.outIndex = s.outIndex + BitVec.ofNat 32 n
  pos : t.pos.toNat = s.pos.toNat + len
  phase : t.phase = if t.outIndex.toNat = s.total.toNat then .footer else s.phase
  pixels : ∀ j < n, ∀ q < 4,
    t.sink.read ((sinkAddr s.outBase (s.outIndex.toNat + j)).toNat + q) =
      some (wordByte (layoutWord s.layout px) q)
  others : ∀ a, (∀ j < n, ∀ q < 4, a ≠ (sinkAddr s.outBase (s.outIndex.toNat + j)).toNat + q) →
    t.sink.read a = s.sink.read a
  params : SameParams s t
  status : SameStatus s t
  header : SameHeader s t
  platform : SamePlatform s t
  before : t.sinkBefore = s.sinkBefore

/-- Every register of the window and last_pixel hold R163's values, and so does irq. -/
structure RegistersReset (t : State) : Prop where
  ctrl : t.ctrlWord = 0
  status : t.statusWord = 0
  phase : t.phase = .idle
  inLen : t.inLen = 0
  outBase : t.outBase = 0
  outCap : t.outCap = 0
  pos : t.pos = 0
  width : t.width = 0
  height : t.height = 0
  hdrInfo : t.hdrInfo = 0
  total : t.total = 0
  outIndex : t.outIndex = 0
  lastPixel : t.lastPixel = ⟨0, 0, 0, 0⟩
  irq : t.irq = false

/-- The bytes `bs` stand in the stream from offset `off` on, and the port can answer them (R48). -/
def Placed (s : State) (off : Nat) (bs : List Byte) : Prop :=
  ∀ k (h : k < bs.length), s.stream.read (off + k) = some bs[k]

/-- The step is BLK's: `rst` is released, and HOST has no turn, or leaves it to BLK; `b` is the state
BLK moves from (R7, R163, log entry 4). -/
def BlkMoves (s b : State) : Prop :=
  s.rst = false ∧ (s.inbox = [] ∧ b = s ∨ ∃ rest, s.inbox = .blk :: rest ∧ b = { s with inbox := rest })

/-- The step is HOST's turn `t`, and `b` is the state it acts on. -/
def HostMoves (s : State) (t : Turn) (b : State) : Prop :=
  ∃ rest, s.inbox = t :: rest ∧ b = { s with inbox := rest }

/-- The length of an opcode (R74); 0 for what is no opcode. -/
def opcodeLength : Instr → Nat
  | .rgb _ _ _ => 4
  | .rgba _ _ _ _ => 5
  | .index _ => 1
  | .diff _ _ _ => 1
  | .luma _ _ _ => 2
  | .run _ => 1
  | .header _ _ _ _ _ => 0
  | .footer _ => 0
  | .cmdSniff _ => 0
  | .cmdDecode _ => 0
  | .cmdNoneBoth _ => 0
  | .ackDone => 0

/-- The emission count of an opcode (R114); 0 for what is no opcode. -/
def copies : Instr → Nat
  | .rgb _ _ _ => 1
  | .rgba _ _ _ _ => 1
  | .index _ => 1
  | .diff _ _ _ => 1
  | .luma _ _ _ => 1
  | .run n => n.toNat + 1
  | .header _ _ _ _ _ => 0
  | .footer _ => 0
  | .cmdSniff _ => 0
  | .cmdDecode _ => 0
  | .cmdNoneBoth _ => 0
  | .ackDone => 0

/-- The sink differs from what it was when the command began at most in the words before OUT_INDEX (R154). -/
def OnlyPrefixWritten (s : State) : Prop :=
  ∀ a, a < s.outBase.toNat ∨ s.outBase.toNat + 4 * s.outIndex.toNat ≤ a →
    s.sink.read a = s.sinkBefore.read a

/-- A channel moved by a delta, modulo 256 (R121, R16). -/
def Shifted (new old : Byte) (delta : Int) : Prop := (new.toNat : Int) = ((old.toNat : Int) + delta) % 256

end Sys2Proof.Claims

open Sys2Proof Sys2Proof.Machine Sys2Proof.Claims

/-! ## Encoding and decoding -/

/-- 30_encoding.md sections 2 to 5, 40_host_commands.md: decoding what the encoder writes gives the
instruction back, with nothing left over, for every operand value. RUN's field is 0..61 (R80); a
header or a footer is given back whatever its fixed bytes are. -/
def Obligations.DecodeOfEncodeGivesTheInstruction : Prop :=
  ∀ i : Instr, (∀ n, i = .run n → n.toNat < 62) → decode (encode i) = .ok (i, [])

/-- 30_encoding.md sections 2 to 5: a decoded header, opcode or footer encodes to the very bytes it was
read from. -/
def Obligations.EncodeOfDecodeGivesTheBytes : Prop :=
  ∀ (u : StreamUnit) (bs : List Byte) (i : Instr) (rest : List Byte),
    decode (.unit u bs) = .ok (i, rest) → ∃ used, encode i = .unit u used ∧ used ++ rest = bs

/-- R83, R81, R84: the 256 tags by range, with the operands each range means. -/
def Obligations.TagSelectsTheOpcode : Prop :=
  ∀ (t b1 b2 b3 b4 : Byte) (rest : List Byte),
    ∃ i left, decode (.unit .opcode (t :: b1 :: b2 :: b3 :: b4 :: rest)) = .ok (i, left) ∧
      (t.toNat < 0x40 → ∃ k, i = .index k ∧ k.toNat = t.toNat ∧ left = b1 :: b2 :: b3 :: b4 :: rest) ∧
      (0x40 ≤ t.toNat → t.toNat < 0x80 → ∃ rr gg bb, i = .diff rr gg bb ∧
        excess rr 2 = (t.toNat / 16 % 4 : Nat) - 2 ∧ excess gg 2 = (t.toNat / 4 % 4 : Nat) - 2 ∧
        excess bb 2 = (t.toNat % 4 : Nat) - 2 ∧ left = b1 :: b2 :: b3 :: b4 :: rest) ∧
      (0x80 ≤ t.toNat → t.toNat < 0xC0 → ∃ gg rr bb, i = .luma gg rr bb ∧
        excess gg 32 = (t.toNat : Int) - 0x80 - 32 ∧ rr.toNat = b1.toNat / 16 ∧
        bb.toNat = b1.toNat % 16 ∧ left = b2 :: b3 :: b4 :: rest) ∧
      (0xC0 ≤ t.toNat → t.toNat < 0xFE → ∃ n, i = .run n ∧ runLength n = t.toNat - 0xC0 + 1 ∧
        runLength n ≤ 62 ∧ left = b1 :: b2 :: b3 :: b4 :: rest) ∧
      (t.toNat = 0xFE → i = .rgb b1 b2 b3 ∧ left = b4 :: rest) ∧
      (t.toNat = 0xFF → i = .rgba b1 b2 b3 b4 ∧ left = rest)

/-- R70, R71, R73: the header's and the footer's fields, byte by byte, big-endian; the footer's number is
1 exactly for the end marker. -/
def Obligations.HeaderAndFooterFieldsAreBigEndian : Prop :=
  (∀ h0 h1 h2 h3 h4 h5 h6 h7 h8 h9 h10 h11 h12 h13 : Byte,
    ∃ m w h, decode (.unit .header [h0, h1, h2, h3, h4, h5, h6, h7, h8, h9, h10, h11, h12, h13]) =
        .ok (.header m w h h12 h13, []) ∧
      m.toNat = h0.toNat * 2 ^ 24 + h1.toNat * 2 ^ 16 + h2.toNat * 2 ^ 8 + h3.toNat ∧
      w.toNat = h4.toNat * 2 ^ 24 + h5.toNat * 2 ^ 16 + h6.toNat * 2 ^ 8 + h7.toNat ∧
      h.toNat = h8.toNat * 2 ^ 24 + h9.toNat * 2 ^ 16 + h10.toNat * 2 ^ 8 + h11.toNat) ∧
  (∀ f0 f1 f2 f3 f4 f5 f6 f7 : Byte,
    ∃ m, decode (.unit .footer [f0, f1, f2, f3, f4, f5, f6, f7]) = .ok (.footer m, []) ∧
      m.toNat = f0.toNat * 2 ^ 56 + f1.toNat * 2 ^ 48 + f2.toNat * 2 ^ 40 + f3.toNat * 2 ^ 32 +
        f4.toNat * 2 ^ 24 + f5.toNat * 2 ^ 16 + f6.toNat * 2 ^ 8 + f7.toNat ∧
      (m = 1 ↔ f0 = 0 ∧ f1 = 0 ∧ f2 = 0 ∧ f3 = 0 ∧ f4 = 0 ∧ f5 = 0 ∧ f6 = 0 ∧ f7 = 1))

/-- 30_encoding.md, 40_host_commands.md: words written out from the encodings. -/
def Obligations.SampleWordsDecode : Prop :=
  decode (.unit .opcode [0xFE, 0x0A, 0x14, 0x1E]) = .ok (.rgb 10 20 30, []) ∧
  decode (.unit .opcode [0xFF, 0x0A, 0x14, 0x1E, 0xFF]) = .ok (.rgba 10 20 30 255, []) ∧
  decode (.unit .opcode [0x3F]) = .ok (.index 63, []) ∧
  decode (.unit .opcode [0x79]) = .ok (.diff 3 2 1, []) ∧
  decode (.unit .opcode [0x9B, 0xB6]) = .ok (.luma 27 11 6, []) ∧
  decode (.unit .opcode [0xFD]) = .ok (.run 61, []) ∧
  decode (.unit .footer [0, 0, 0, 0, 0, 0, 0, 1]) = .ok (.footer 1, []) ∧
  decode (.csrWrite 0x00 0x00000005) = .ok (.cmdSniff true, []) ∧
  decode (.csrWrite 0x00 0x00000002) = .ok (.cmdDecode false, []) ∧
  decode (.csrWrite 0x00 0x00000003) = .ok (.cmdNoneBoth false, []) ∧
  decode (.csrWrite 0x04 0x00000002) = .ok (.ackDone, [])

/-- 30_encoding.md section 4: bytes that are too few for a unit are rejected by name. That a CTRL write
with bits 1:0 = 00, a STATUS write with bit 1 = 0 and a write to any other register are no instructions
is the model's deduction, log entry 17: such a CTRL write still sets IE (R92) and a configuration write
still stores (R94), as plain writes of the step. -/
def Obligations.WhatIsNoInstructionIsRejectedByName : Prop :=
  (∀ bs : List Byte, bs.length < 14 → decode (.unit .header bs) = .error .headerShort) ∧
  (∀ bs : List Byte, bs.length < 8 → decode (.unit .footer bs) = .error .footerShort) ∧
  decode (.unit .opcode []) = .error .tagMissing ∧
  (∀ (t : Byte) (bs : List Byte), bs.length + 1 < (dispatch t).length →
    decode (.unit .opcode (t :: bs)) = .error .operandMissing) ∧
  (∀ v : Word, v.toNat % 4 = 0 → decode (.csrWrite 0x00 v) = .error .noCommand) ∧
  (∀ v : Word, v.toNat / 2 % 2 = 0 → decode (.csrWrite 0x04 v) = .error .noAcknowledge) ∧
  (∀ (off : Nat) (v : Word), off ≠ 0x00 → off ≠ 0x04 →
    decode (.csrWrite off v) = .error .notCommandRegister)

/-! ## The six opcodes -/

/-- R122, R75: RGB. Its bytes, its pixel (alpha inherited), its commit, and TruncatedInput(3) when
fewer than 3 operand bytes remain. -/
def Obligations.RgbReplacesTheColoursAndKeepsAlpha : Prop :=
  ∀ (s : State) (r g b : Byte) (rest : List Byte),
    decode (.unit .opcode (0xFE :: r :: g :: b :: rest)) = .ok (.rgb r g b, rest) ∧
    (s.pos.toNat + 4 ≤ s.inLen.toNat → s.outIndex.toNat + 1 ≤ s.total.toNat →
      ∃ t, exec (.rgb r g b) s = .next t ∧ Committed s t ⟨r, g, b, s.lastPixel.a⟩ 1 4) ∧
    (s.pos.toNat < s.inLen.toNat → s.inLen.toNat < s.pos.toNat + 4 →
      ∃ t, exec (.rgb r g b) s = .next t ∧ Raised s t .truncatedInput 3)

/-- R123, R76: RGBA. Its bytes, its pixel, its commit, and TruncatedInput(3) when fewer than 4 operand
bytes remain. -/
def Obligations.RgbaReplacesTheWholePixel : Prop :=
  ∀ (s : State) (r g b a : Byte) (rest : List Byte),
    decode (.unit .opcode (0xFF :: r :: g :: b :: a :: rest)) = .ok (.rgba r g b a, rest) ∧
    (s.pos.toNat + 5 ≤ s.inLen.toNat → s.outIndex.toNat + 1 ≤ s.total.toNat →
      ∃ t, exec (.rgba r g b a) s = .next t ∧ Committed s t ⟨r, g, b, a⟩ 1 5) ∧
    (s.pos.toNat < s.inLen.toNat → s.inLen.toNat < s.pos.toNat + 5 →
      ∃ t, exec (.rgba r g b a) s = .next t ∧ Raised s t .truncatedInput 3)

/-- R131, R77: INDEX. Its byte, its pixel (the slot as the last commit left it), its commit (at slot
hash(px), which need not be k), and TruncatedInput(2), the only error it can have. -/
def Obligations.IndexEmitsTheCacheSlot : Prop :=
  ∀ (s : State) (k : BitVec 6) (rest : List Byte),
    decode (.unit .opcode ((0#2 ++ k) :: rest)) = .ok (.index k, rest) ∧
    (s.pos.toNat + 1 ≤ s.inLen.toNat → s.outIndex.toNat + 1 ≤ s.total.toNat →
      ∃ t, exec (.index k) s = .next t ∧ Committed s t (cacheLookup s k) 1 1) ∧
    (s.inLen.toNat ≤ s.pos.toNat → ∃ t, exec (.index k) s = .next t ∧ Raised s t .truncatedInput 2)

/-- R124, R78: DIFF. Its byte, its pixel (each channel moved by field - 2 modulo 256, alpha kept), its
commit, and TruncatedInput(2), the only error it can have. -/
def Obligations.DiffMovesEachChannel : Prop :=
  ∀ (s : State) (rr gg bb : BitVec 2) (rest : List Byte),
    decode (.unit .opcode ((1#2 ++ rr ++ gg ++ bb) :: rest)) = .ok (.diff rr gg bb, rest) ∧
    (s.pos.toNat + 1 ≤ s.inLen.toNat → s.outIndex.toNat + 1 ≤ s.total.toNat →
      ∃ t px, exec (.diff rr gg bb) s = .next t ∧ Committed s t px 1 1 ∧
        Shifted px.r s.lastPixel.r (rr.toNat - 2) ∧ Shifted px.g s.lastPixel.g (gg.toNat - 2) ∧
        Shifted px.b s.lastPixel.b (bb.toNat - 2) ∧ px.a = s.lastPixel.a) ∧
    (s.inLen.toNat ≤ s.pos.toNat → ∃ t, exec (.diff rr gg bb) s = .next t ∧ Raised s t .truncatedInput 2)

/-- R125, R79: LUMA. Its bytes, its pixel (dg = field - 32, dr and db biased by dg, modulo 256, alpha
kept), its commit, and TruncatedInput(3) when the second byte is absent. -/
def Obligations.LumaMovesEachChannel : Prop :=
  ∀ (s : State) (gg : BitVec 6) (rr bb : BitVec 4) (rest : List Byte),
    decode (.unit .opcode ((2#2 ++ gg) :: (rr ++ bb) :: rest)) = .ok (.luma gg rr bb, rest) ∧
    (s.pos.toNat + 2 ≤ s.inLen.toNat → s.outIndex.toNat + 1 ≤ s.total.toNat →
      ∃ t px, exec (.luma gg rr bb) s = .next t ∧ Committed s t px 1 2 ∧
        Shifted px.r s.lastPixel.r (rr.toNat - 8 + (gg.toNat - 32)) ∧
        Shifted px.g s.lastPixel.g (gg.toNat - 32) ∧
        Shifted px.b s.lastPixel.b (bb.toNat - 8 + (gg.toNat - 32)) ∧ px.a = s.lastPixel.a) ∧
    (s.pos.toNat < s.inLen.toNat → s.inLen.toNat < s.pos.toNat + 2 →
      ∃ t, exec (.luma gg rr bb) s = .next t ∧ Raised s t .truncatedInput 3)

/-- R133, R80: RUN. Its byte, its n = field + 1 copies of last_pixel at consecutive indices, one cache
store, and TruncatedInput(4) with no pixel written when the run would pass TOTAL. -/
def Obligations.RunRepeatsTheLastPixel : Prop :=
  ∀ (s : State) (n : BitVec 6) (rest : List Byte),
    (n.toNat < 62 → decode (.unit .opcode ((3#2 ++ n) :: rest)) = .ok (.run n, rest)) ∧
    (s.pos.toNat + 1 ≤ s.inLen.toNat → s.outIndex.toNat + (n.toNat + 1) ≤ s.total.toNat →
      ∃ t, exec (.run n) s = .next t ∧ Committed s t s.lastPixel (n.toNat + 1) 1) ∧
    (s.pos.toNat + 1 ≤ s.inLen.toNat → s.total.toNat < s.outIndex.toNat + (n.toNat + 1) →
      ∃ t, exec (.run n) s = .next t ∧ Raised s t .truncatedInput 4)

/-- R111, R113, R115, R117, R150: an opcode's three errors, in their priority, and that an opcode that
raises changes only STATUS. -/
def Obligations.OpcodeErrorsComeInPriority : Prop :=
  ∀ (s : State) (i : Instr), opcodeLength i ≠ 0 → ∃ t, exec i s = .next t ∧
    (s.inLen.toNat ≤ s.pos.toNat → Raised s t .truncatedInput 2) ∧
    (s.pos.toNat < s.inLen.toNat → s.inLen.toNat < s.pos.toNat + opcodeLength i →
      Raised s t .truncatedInput 3) ∧
    (s.pos.toNat + opcodeLength i ≤ s.inLen.toNat → s.total.toNat < s.outIndex.toNat + copies i →
      Raised s t .truncatedInput 4)

/-- R127: the hash is the exact weighted sum modulo 64; the sum is at most 6630 and fits 13 bits; reducing
each product, and each partial sum, first gives the same slot; and the rule's three values. -/
def Obligations.HashIsTheWeightedSumMod64 : Prop :=
  (∀ p : Pixel,
    (pixelHash p).toNat = (p.r.toNat * 3 + p.g.toNat * 5 + p.b.toNat * 7 + p.a.toNat * 11) % 64 ∧
    p.r.toNat * 3 + p.g.toNat * 5 + p.b.toNat * 7 + p.a.toNat * 11 ≤ 6630 ∧ 6630 < 2 ^ 13 ∧
    (pixelHash p).toNat = (3 * p.r.toNat % 64 + 5 * p.g.toNat % 64 + 7 * p.b.toNat % 64 + 11 * p.a.toNat % 64) % 64 ∧
    (pixelHash p).toNat =
      (((3 * p.r.toNat + 5 * p.g.toNat) % 64 + 7 * p.b.toNat) % 64 + 11 * p.a.toNat) % 64) ∧
  pixelHash ⟨0, 0, 0, 0⟩ = 0 ∧ pixelHash ⟨0, 0, 0, 255⟩ = 53 ∧ pixelHash ⟨255, 255, 255, 255⟩ = 38

/-- R118, R119: after any opcode that commits, INDEX of the slot it stored gives its pixel again and
leaves the cache as it is. -/
def Obligations.IndexAfterACommitGivesThePixelAgain : Prop :=
  ∀ (s t : State) (i : Instr), opcodeLength i ≠ 0 → exec i s = .next t → t.done = false →
    t.pos.toNat + 1 ≤ t.inLen.toNat → t.outIndex.toNat + 1 ≤ t.total.toNat →
    ∃ u, exec (.index (pixelHash t.lastPixel)) t = .next u ∧ u.lastPixel = t.lastPixel ∧
      ∀ k, cacheLookup u k = cacheLookup t k

/-- R126: RGB, DIFF, LUMA and RUN never change alpha, whether they commit or raise. -/
def Obligations.OnlyRgbaAndIndexChangeAlpha : Prop :=
  ∀ (s t : State) (i : Instr), exec i s = .next t → opcodeLength i ≠ 0 →
    (∀ r g b a, i ≠ .rgba r g b a) → (∀ k, i ≠ .index k) → t.lastPixel.a = s.lastPixel.a

/-- R142: every PIXEL_LAYOUT is a bijection, and the default lays r, g, b, a at offsets 0 to 3. -/
def Obligations.PixelLayoutIsABijection : Prop :=
  (∀ l : PixelLayout, Function.Bijective (layoutWord l)) ∧
  (∀ p : Pixel, wordBytes (layoutWord .rgba8Bytes p) = [p.r, p.g, p.b, p.a] ∧
    (layoutWord .rgba8Bytes p).toNat =
      p.r.toNat * 2 ^ 24 + p.g.toNat * 2 ^ 16 + p.b.toNat * 2 ^ 8 + p.a.toNat)

/-! ## The header and the footer -/

/-- R102, R104, R106, R108, R109: a header that passes its checks loads the fields (TOTAL the exact
product), zeroes the cache, seeds last_pixel and goes on to the opcodes, or to the footer if TOTAL is
0; no sink word is written. -/
def Obligations.HeaderLoadsAndInitialises : Prop :=
  ∀ (s : State) (w h : Word) (c k : Byte), 14 ≤ s.inLen.toNat →
    w.toNat * h.toNat ≤ s.outCap.toNat → s.outBase.toNat + 4 * (w.toNat * h.toNat) ≤ 2 ^ 32 →
    ∃ t, exec (.header 0x716F6966 w h c k) s = .next t ∧
      t.width = w ∧ t.height = h ∧ t.channels = c ∧ t.colorspace = k ∧
      t.total.toNat = w.toNat * h.toNat ∧
      (∀ j, cacheLookup t j = ⟨0, 0, 0, 0⟩) ∧ t.lastPixel = ⟨0, 0, 0, 255⟩ ∧
      t.outIndex = 0 ∧ t.pos = 14 ∧
      t.phase = (if w.toNat * h.toNat = 0 then .footer else .ops) ∧
      SameParams s t ∧ SameStatus s t ∧ SamePlatform s t ∧ SameSink s t

/-- R150, R103, R107, R104: the header's four errors in their priority. The fields are loaded before
the allocation check and stay 0 or old before it. -/
def Obligations.HeaderErrorsComeInPriority : Prop :=
  ∀ (s : State) (m w h : Word) (c k : Byte), ∃ t, exec (.header m w h c k) s = .next t ∧
    (s.inLen.toNat < 14 → Raised s t .truncatedInput 1) ∧
    (14 ≤ s.inLen.toNat → m ≠ 0x716F6966 → Raised s t .formatMismatch 1) ∧
    (14 ≤ s.inLen.toNat → m = 0x716F6966 → s.outCap.toNat < w.toNat * h.toNat →
      Raised (loadHeader w h c k s) t .allocationFailure 1) ∧
    (14 ≤ s.inLen.toNat → m = 0x716F6966 → w.toNat * h.toNat ≤ s.outCap.toNat →
      2 ^ 32 < s.outBase.toNat + 4 * (w.toNat * h.toNat) →
      Raised (loadHeader w h c k s) t .allocationFailure 2)

/-- R105: CHANNELS and COLORSPACE are never read by the decode: a BLK step from two states that differ
only there answers two states that differ only there. -/
def Obligations.ChannelsAndColorspaceChangeNothing : Prop :=
  ∀ (s b t : State) (c k : Byte), BlkMoves s b → step s = .next t →
    ∃ c' k', step { s with channels := c, colorspace := k } =
      .next { t with channels := c', colorspace := k' }

/-- R132, R108: a decode that passes the allocation check starts the same whatever the cache and
last_pixel held. -/
def Obligations.DecodeForgetsTheOldCache : Prop :=
  ∀ (s : State) (w h : Word) (c k : Byte) (cache : Vector Pixel 64) (last : Pixel),
    14 ≤ s.inLen.toNat → w.toNat * h.toNat ≤ s.outCap.toNat →
    s.outBase.toNat + 4 * (w.toNat * h.toNat) ≤ 2 ^ 32 →
    exec (.header 0x716F6966 w h c k) { s with cache := cache, lastPixel := last } =
      exec (.header 0x716F6966 w h c k) s

/-- R136, R137, R138, R140: the footer unit. A matching footer completes with POS past it, whatever
follows; a short one raises TruncatedInput(5); the first byte that differs is named. -/
def Obligations.FooterIsComparedByteByByte : Prop :=
  ∀ (s : State) (f0 f1 f2 f3 f4 f5 f6 f7 : Byte),
    ∃ m t, decode (.unit .footer [f0, f1, f2, f3, f4, f5, f6, f7]) = .ok (.footer m, []) ∧
      exec (.footer m) s = .next t ∧
      (s.inLen.toNat < s.pos.toNat + 8 → Raised s t .truncatedInput 5) ∧
      (s.pos.toNat + 8 ≤ s.inLen.toNat → [f0, f1, f2, f3, f4, f5, f6, f7] = [0, 0, 0, 0, 0, 0, 0, 1] →
        Completed s t ∧ t.matched = s.matched ∧ t.pos.toNat = s.pos.toNat + 8) ∧
      (s.pos.toNat + 8 ≤ s.inLen.toNat → ∀ j < 8,
        [f0, f1, f2, f3, f4, f5, f6, f7].take j = [0, 0, 0, 0, 0, 0, 0, 1].take j →
        [f0, f1, f2, f3, f4, f5, f6, f7][j]? ≠ [0, 0, 0, 0, 0, 0, 0, (1 : Byte)][j]? →
        Raised s t .invalidEndMarker (j + 1))

/-! ## The sniffer -/

/-- R97, R98, R99, R100: the sniff unit compares the first four bytes, reads nothing when IN_LEN < 4,
never raises, and changes STATUS alone. -/
def Obligations.SniffComparesTheMagic : Prop :=
  ∀ (s b : State), BlkMoves s b → s.phase = .sniff →
    (s.inLen.toNat < 4 →
      ∃ t, step s = .next t ∧ Completed b t ∧ t.pos = b.pos ∧ t.matched = false) ∧
    (∀ m0 m1 m2 m3 : Byte, 4 ≤ s.inLen.toNat → Placed s 0 [m0, m1, m2, m3] →
      ∃ t, step s = .next t ∧ Completed b t ∧ t.pos = b.pos ∧
        (t.matched = true ↔ m0 = 0x71 ∧ m1 = 0x6F ∧ m2 = 0x69 ∧ m3 = 0x66))

/-- R101: on the same stream, when IN_LEN is at least 14, MATCH = 1 exactly when the header unit does not
raise FormatMismatch; when it is less, the header unit raises TruncatedInput(1) whatever the stream is. -/
def Obligations.SniffAgreesWithTheHeaderUnit : Prop :=
  ∀ s : State, s.rst = false → s.inbox = [] → s.err = .noError →
    (14 ≤ s.inLen.toNat → ∀ hdr : List Byte, hdr.length = 14 → Placed s 0 hdr →
      ∃ t u, step { s with phase := .sniff } = .next t ∧ step { s with phase := .header } = .next u ∧
        (t.matched = true ↔ u.err ≠ .formatMismatch)) ∧
    (s.inLen.toNat < 14 →
      ∃ u, step { s with phase := .header } = .next u ∧ Raised { s with phase := .header } u .truncatedInput 1)

/-! ## HOST's commands -/

/-- R88, R91, R92: CMD_SNIFF: the CTRL writes that are it, its start while PHASE is IDLE, and, while a
command runs, IE alone. -/
def Obligations.CmdSniffStartsASniffWhenIdle : Prop :=
  (∀ v : Word, v.toNat % 4 = 1 → decode (.csrWrite 0x00 v) = .ok (.cmdSniff (v.getLsbD 2), [])) ∧
  ∀ (s : State) (ie : Bool), ∃ t, exec (.cmdSniff ie) s = .next t ∧ t.ie = ie ∧
    (s.phase = .idle → t.done = false ∧ t.ok = false ∧ t.err = .noError ∧ t.detail = 0 ∧
      t.phase = .sniff ∧ t.matched = s.matched) ∧
    (s.phase ≠ .idle → t.phase = s.phase ∧ SameStatus s t) ∧
    t.inLen = s.inLen ∧ t.outBaseHi = s.outBaseHi ∧ t.outCap = s.outCap ∧
    SameHeader s t ∧ SameDatapath s t ∧ SamePlatform s t ∧ SameSink s t

/-- R89, R91, R92: CMD_DECODE: the CTRL writes that are it, its start while PHASE is IDLE, and, while a
command runs, IE alone. -/
def Obligations.CmdDecodeStartsADecodeWhenIdle : Prop :=
  (∀ v : Word, v.toNat % 4 = 2 → decode (.csrWrite 0x00 v) = .ok (.cmdDecode (v.getLsbD 2), [])) ∧
  ∀ (s : State) (ie : Bool), ∃ t, exec (.cmdDecode ie) s = .next t ∧ t.ie = ie ∧
    (s.phase = .idle → t.done = false ∧ t.ok = false ∧ t.err = .noError ∧ t.detail = 0 ∧
      t.phase = .header ∧ t.matched = s.matched ∧ t.pos = 0 ∧ t.outIndex = 0 ∧ t.width = 0 ∧
      t.height = 0 ∧ t.channels = 0 ∧ t.colorspace = 0 ∧ t.total = 0 ∧
      t.lastPixel = s.lastPixel ∧ t.cache = s.cache) ∧
    (s.phase ≠ .idle → t.phase = s.phase ∧ SameStatus s t ∧ SameHeader s t ∧ SameDatapath s t) ∧
    t.inLen = s.inLen ∧ t.outBaseHi = s.outBaseHi ∧ t.outCap = s.outCap ∧ SamePlatform s t ∧
    ∀ a, t.sink.read a = s.sink.read a

/-- R90, R92: a CTRL write with both command bits set starts nothing, whatever PHASE is; IE is set. -/
def Obligations.CmdNoneBothStartsNothing : Prop :=
  (∀ v : Word, v.toNat % 4 = 3 → decode (.csrWrite 0x00 v) = .ok (.cmdNoneBoth (v.getLsbD 2), [])) ∧
  ∀ (s : State) (ie : Bool), ∃ t, exec (.cmdNoneBoth ie) s = .next t ∧ t.ie = ie ∧
    t.phase = s.phase ∧ SameStatus s t ∧
    t.inLen = s.inLen ∧ t.outBaseHi = s.outBaseHi ∧ t.outCap = s.outCap ∧
    SameHeader s t ∧ SameDatapath s t ∧ SamePlatform s t ∧ SameSink s t

/-- R93: the acknowledgement clears DONE and nothing else; irq falls. -/
def Obligations.AckDoneClearsDoneOnly : Prop :=
  ∀ (s : State) (v : Word),
    (v.toNat / 2 % 2 = 1 → decode (.csrWrite 0x04 v) = .ok (.ackDone, [])) ∧
    ∃ t, exec .ackDone s = .next t ∧ t.done = false ∧ t.irq = false ∧
      t.ok = s.ok ∧ t.matched = s.matched ∧ t.err = s.err ∧ t.detail = s.detail ∧ t.phase = s.phase ∧
      SameParams s t ∧ SameHeader s t ∧ SameDatapath s t ∧ SamePlatform s t ∧ SameSink s t

/-- R92: every HOST write to CTRL sets IE to bit 2 of the value, at any PHASE, and irq follows at once
(R155). R28: one with bits 1:0 = 00 starts no command and changes nothing else. -/
def Obligations.EveryCtrlWriteSetsIe : Prop :=
  ∀ (s b : State) (v : Word), s.rst = false → HostMoves s (.csrWrite .word s.csrBase v) b →
    (∃ t, step s = .next t ∧ t.ie = v.getLsbD 2 ∧ t.irq = (t.done && v.getLsbD 2)) ∧
    (v.toNat % 4 = 0 → step s = .next { b with ie := v.getLsbD 2 })

/-- R94, R31, R32, R33: a write to IN_LEN, OUT_BASE or OUT_CAP is stored while BUSY = 0 (OUT_BASE with
bits 1:0 cleared) and ignored while BUSY = 1. -/
def Obligations.ConfigurationWritesAreTakenOnlyWhileIdle : Prop :=
  ∀ (s b : State) (v : Word), s.rst = false →
    (HostMoves s (.csrWrite .word (s.csrBase + 0x08) v) b →
      step s = .next (if s.phase = .idle then { b with inLen := v } else b)) ∧
    (HostMoves s (.csrWrite .word (s.csrBase + 0x0C) v) b → ∃ hi : BitVec 30,
      (hi ++ 0#2).toNat = v.toNat / 4 * 4 ∧
      step s = .next (if s.phase = .idle then { b with outBaseHi := hi } else b)) ∧
    (HostMoves s (.csrWrite .word (s.csrBase + 0x10) v) b →
      step s = .next (if s.phase = .idle then { b with outCap := v } else b))

/-- R27, R93: writes to the read-only and the reserved registers change no state, and neither does a
STATUS write with bit 1 = 0. -/
def Obligations.ReadOnlyAndReservedWritesAreIgnored : Prop :=
  ∀ (s b : State) (off : Nat) (v : Word), s.rst = false →
    HostMoves s (.csrWrite .word (s.csrBase + off) v) b →
    (0x14 ≤ off → off < 0x40 → off % 4 = 0 → step s = .next b) ∧
    (off = 0x04 → v.toNat / 2 % 2 = 0 → step s = .next b)

/-- R26: an access outside the 64-byte window is not decoded by the block: a write leaves the block as
it is, and a read changes only what HOST holds (the platform's answer is free, log entry 7). That the
sink is no part of HOST's platform addresses, and that an access which starts below the window counts as
outside whatever its width, are the model's choices, log entries 26 and 27. -/
def Obligations.AccessOutsideTheWindowLeavesTheBlock : Prop :=
  ∀ (s b : State) (w : AccessWidth) (addr : Nat) (v : Word),
    addr < s.csrBase ∨ s.csrBase + 64 ≤ addr →
    (HostMoves s (.csrWrite w addr v) b → step s = .next b) ∧
    (HostMoves s (.csrRead w addr) b →
      ∃ x n, step s = .next { b with hostData := x, draws := n })

/-- R25 to R40, R41: a HOST read returns the register at its offset: CTRL, STATUS and the configuration
registers at any time, the result registers while BUSY = 0, the reserved ones as 0; it changes
nothing else. -/
def Obligations.CsrReadReturnsTheRegister : Prop :=
  ∀ (s b : State) (off : Nat), s.rst = false → off < 0x40 → off % 4 = 0 →
    (s.phase = .idle ∨ off < 0x14 ∨ 0x34 ≤ off) →
    HostMoves s (.csrRead .word (s.csrBase + off)) b →
    ∃ w : Word, step s = .next { b with hostData := w } ∧
      (off = 0x00 → w.toNat = 4 * s.ie.toNat) ∧
      (off = 0x08 → w = s.inLen) ∧ (off = 0x0C → w = s.outBase) ∧ (off = 0x10 → w = s.outCap) ∧
      (off = 0x14 → w = s.pos) ∧ (off = 0x18 → w = s.width) ∧ (off = 0x1C → w = s.height) ∧
      (off = 0x20 → w.toNat = s.colorspace.toNat * 2 ^ 8 + s.channels.toNat) ∧
      (off = 0x24 → w.toNat = s.total.toNat % 2 ^ 32) ∧
      (off = 0x28 → w.toNat = s.total.toNat / 2 ^ 32) ∧
      (off = 0x2C → w = s.outIndex) ∧
      (off = 0x30 → w.toNat = s.lastPixel.r.toNat * 2 ^ 24 + s.lastPixel.g.toNat * 2 ^ 16 +
        s.lastPixel.b.toNat * 2 ^ 8 + s.lastPixel.a.toNat) ∧
      (0x34 ≤ off → w = 0)

/-- R29, R30, R147: the STATUS word bit by bit. -/
def Obligations.StatusReadsItsFields : Prop :=
  ∀ (s b : State), s.rst = false → HostMoves s (.csrRead .word (s.csrBase + 0x04)) b →
    ∃ w : Word, step s = .next { b with hostData := w } ∧
      (w.getLsbD 0 = true ↔ s.phase ≠ .idle) ∧ w.getLsbD 1 = s.done ∧ w.getLsbD 2 = s.ok ∧
      w.getLsbD 3 = s.matched ∧
      w.toNat / 2 ^ 4 % 16 = (match s.err with
        | .noError => 0 | .formatMismatch => 1 | .truncatedInput => 2
        | .invalidEndMarker => 3 | .allocationFailure => 4) ∧
      w.toNat / 2 ^ 8 % 16 = s.detail.toNat ∧
      w.toNat / 2 ^ 12 = (match s.phase with
        | .idle => 0 | .sniff => 1 | .header => 2 | .ops => 3 | .footer => 4)

/-- R41: while BUSY = 1 a read of a result register returns a free word (the model's draw, log entry 8)
and changes nothing else. -/
def Obligations.BusyReadOfAResultRegisterIsAFreeDraw : Prop :=
  ∀ (s b : State) (off : Nat), s.rst = false → s.phase ≠ .idle → 0x14 ≤ off → off ≤ 0x30 →
    off % 4 = 0 → HostMoves s (.csrRead .word (s.csrBase + off)) b →
    step s = .next { b with hostData := Config.freeWord s.draws, draws := s.draws + 1 }

/-- R26, R164: a CSR access that is no aligned word is refused, and so is every CSR access while `rst`
is asserted. -/
def Obligations.CsrAccessOutsideTheContractIsRefused : Prop :=
  ∀ (s b : State) (w : AccessWidth) (off : Nat) (v : Word), off < 0x40 →
    (HostMoves s (.csrRead w (s.csrBase + off)) b ∨ HostMoves s (.csrWrite w (s.csrBase + off) v) b) →
    (s.rst = true → step s = .refused .accessDuringReset) ∧
    (s.rst = false → w ≠ .word ∨ off % 4 ≠ 0 → step s = .refused .csrBadAccess)

/-- R155, R156: irq = DONE & IE as events move it: a command's start and the acknowledgement lower it,
setting IE with DONE = 1 raises it at once, and the end of a command raises it exactly when IE = 1. -/
def Obligations.InterruptFollowsDoneAndIe : Prop :=
  (∀ (s t : State) (ie : Bool), s.phase = .idle →
    exec (.cmdSniff ie) s = .next t ∨ exec (.cmdDecode ie) s = .next t → t.irq = false) ∧
  (∀ (s t : State), exec .ackDone s = .next t → t.irq = false) ∧
  (∀ (s t : State) (ie : Bool), s.done = true → exec (.cmdNoneBoth ie) s = .next t → t.irq = ie) ∧
  (∀ (s b t : State), BlkMoves s b → s.phase ≠ .idle → s.done = false → step s = .next t →
    (t.irq = true ↔ t.phase = .idle ∧ s.ie = true))

/-! ## Steps -/

/-- R8, R102, R110, R136, R26: when the unit that is due finds its bytes, or HOST writes a command, the
step is exec of the decoded instruction (on the state with HOST's turn taken off). -/
def Obligations.StepRunsTheDecodedInstruction : Prop :=
  ∀ (s b : State) (i : Instr),
    (∀ bs, BlkMoves s b → s.phase = .header → 14 ≤ s.inLen.toNat → Placed s 0 bs →
      decode (.unit .header bs) = .ok (i, []) → step s = exec i b) ∧
    (∀ bs, BlkMoves s b → s.phase = .ops → s.pos.toNat + bs.length ≤ s.inLen.toNat →
      Placed s s.pos.toNat bs → decode (.unit .opcode bs) = .ok (i, []) → step s = exec i b) ∧
    (∀ bs, BlkMoves s b → s.phase = .footer → s.pos.toNat + 8 ≤ s.inLen.toNat →
      Placed s s.pos.toNat bs → decode (.unit .footer bs) = .ok (i, []) → step s = exec i b) ∧
    (∀ off v, s.rst = false → HostMoves s (.csrWrite .word (s.csrBase + off) v) b →
      decode (.csrWrite off v) = .ok (i, []) → step s = exec i b)

/-- 43_tag_dispatcher.md R110 to R113, 42 R102, 47 R137: a unit whose bytes do not all lie in S raises
TruncatedInput without them, whatever the stream holds. -/
def Obligations.UnitCutShortRaisesTruncatedInput : Prop :=
  ∀ (s b : State), BlkMoves s b →
    (s.phase = .header → s.inLen.toNat < 14 →
      ∃ t, step s = .next t ∧ Raised b t .truncatedInput 1) ∧
    (s.phase = .ops → s.inLen.toNat ≤ s.pos.toNat →
      ∃ t, step s = .next t ∧ Raised b t .truncatedInput 2) ∧
    (∀ tag, s.phase = .ops → s.pos.toNat < s.inLen.toNat → s.stream.read s.pos.toNat = some tag →
      s.inLen.toNat < s.pos.toNat + (dispatch tag).length →
      dispatch tag ∈ [Opcode.rgb, .rgba, .luma] ∧
      ∃ t, step s = .next t ∧ Raised b t .truncatedInput 3) ∧
    (s.phase = .footer → s.inLen.toNat < s.pos.toNat + 8 →
      ∃ t, step s = .next t ∧ Raised b t .truncatedInput 5)

/-- R162, R163, R68: while PHASE = IDLE, and while `rst` is asserted, BLK takes no step and every
register keeps its value. -/
def Obligations.IdleBlockKeepsEverything : Prop :=
  ∀ s : State, s.phase = .idle ∨ s.rst = true →
    (s.inbox = [] → step s = .next s) ∧
    (∀ rest, s.inbox = .blk :: rest → step s = .next { s with inbox := rest })

/-- R51, R158: BLK holds, and stays BUSY, while a read it needs is not answered. That a byte the port
cannot answer is an unlisted one is the model's form, log entry 5; that a sniff needs all four bytes,
also after one that differs, is the model's choice, log entry 28. -/
def Obligations.UnansweredReadHoldsTheBlock : Prop :=
  ∀ (s b : State) (k : Nat), BlkMoves s b →
    (s.phase = .sniff → 4 ≤ s.inLen.toNat → k < 4 → s.stream.read k = none → step s = .next b) ∧
    (s.phase = .header → 14 ≤ s.inLen.toNat → k < 14 → s.stream.read k = none → step s = .next b) ∧
    (s.phase = .ops → s.pos.toNat < s.inLen.toNat → s.stream.read s.pos.toNat = none →
      step s = .next b) ∧
    (∀ tag, s.phase = .ops → s.stream.read s.pos.toNat = some tag → k < (dispatch tag).length →
      s.pos.toNat + (dispatch tag).length ≤ s.inLen.toNat → s.stream.read (s.pos.toNat + k) = none →
      step s = .next b) ∧
    (s.phase = .footer → s.pos.toNat + 8 ≤ s.inLen.toNat → k < 8 →
      s.stream.read (s.pos.toNat + k) = none → step s = .next b)

/-- R49, R48: BLK never reads at an offset of IN_LEN or above: its step does not depend on those
bytes. -/
def Obligations.BlockReadsOnlyBelowInLen : Prop :=
  ∀ (s b t : State) (m : Memory), BlkMoves s b → (∀ k < s.inLen.toNat, m.read k = s.stream.read k) →
    step s = .next t → step { s with stream := m } = .next { t with stream := m }

/-- R84, R149: no instruction stops the machine: exec answers a next state for every instruction in
every state. -/
def Obligations.NoInstructionStopsTheMachine : Prop :=
  ∀ (i : Instr) (s : State), ∃ t, exec i s = .next t

/-- R31, R50, R65, R94: while a command runs, no turn but reset's changes IN_LEN, OUT_BASE, OUT_CAP or a
byte of S that the stream port has. -/
def Obligations.RunningCommandKeepsItsParameters : Prop :=
  ∀ s t : State, s.phase ≠ .idle → (∀ rest, s.inbox ≠ .rstAssert :: rest) →
    (∀ rest, s.inbox ≠ .rstRelease :: rest) → step s = .next t →
    t.inLen = s.inLen ∧ t.outBaseHi = s.outBaseHi ∧ t.outCap = s.outCap ∧
    ∀ k < s.inLen.toNat, s.stream.read k ≠ none → t.stream.read k = s.stream.read k

/-- R29: MATCH is written only by the sniff unit (and by reset). -/
def Obligations.MatchIsWrittenOnlyByTheSniff : Prop :=
  ∀ s t : State, s.phase ≠ .sniff → (∀ rest, s.inbox ≠ .rstAssert :: rest) →
    (∀ rest, s.inbox ≠ .rstRelease :: rest) → step s = .next t → t.matched = s.matched

/-- R151, R117, R146: errors are precise: a BLK step that ends the command with OK = 0 writes no sink
byte, stores nothing in the cache and leaves last_pixel, OUT_INDEX and POS as they were; only the
header unit may have loaded the header registers. -/
def Obligations.ErrorsArePrecise : Prop :=
  ∀ s b t : State, BlkMoves s b → s.phase ≠ .idle → step s = .next t →
    t.phase = .idle → t.ok = false →
    t.done = true ∧ t.err ≠ .noError ∧ legalResult t.err t.detail = true ∧
    SameDatapath b t ∧ SameSink b t ∧ SameParams b t ∧ t.matched = s.matched ∧
    (s.phase ≠ .header → SameHeader b t)

/-- R54, R61, R65: a BLK step writes only the sink words from the old OUT_INDEX up to the new one, all of
them below OUT_BASE + 4*TOTAL, and only when an opcode is due; it never writes S. -/
def Obligations.BlockWritesOnlyTheNextWords : Prop :=
  ∀ s b t : State, s.Inv → BlkMoves s b → step s = .next t →
    t.stream = s.stream ∧
    ∀ a, t.sink.read a ≠ s.sink.read a →
      s.phase = .ops ∧ s.outBase.toNat + 4 * s.outIndex.toNat ≤ a ∧
      a < s.outBase.toNat + 4 * t.outIndex.toNat ∧ a < s.outBase.toNat + 4 * s.total.toNat

/-- R144, R154, R107: the sink words from OUT_INDEX on are untouched by the command: CMD_DECODE begins so,
and every BLK step, failing or not, keeps it. -/
def Obligations.WordsFromOutIndexOnAreUntouched : Prop :=
  (∀ (s t : State) (ie : Bool), s.phase = .idle → exec (.cmdDecode ie) s = .next t → OnlyPrefixWritten t) ∧
  (∀ s b t : State, s.Inv → BlkMoves s b → OnlyPrefixWritten s → step s = .next t → OnlyPrefixWritten t)

/-- R65, R145, D16: while BUSY = 1, HOST changing a byte of S, or touching a sink byte of the OUT_CAP
words (R145) or the TOTAL words (R65) from OUT_BASE on, is refused. While BUSY = 0 the same turns are
taken: a stream or sink write changes that byte and nothing else, and a sink read changes only what HOST
holds, which is the byte if the memory has it. (Taken also while `rst` is asserted: the model's
deduction, log entry 13. That a byte is refused only where the port has another one, and that an
unwritten byte reads as a free value, are log entries 6 and 9; that HOST reaches both memories one byte
a turn, zero-extended in what it holds, is the model's choice, log entry 29.) -/
def Obligations.HostMayNotDisturbARunningCommand : Prop :=
  ∀ (s b : State) (x : Word) (v : Byte),
    (HostMoves s (.streamWrite x v) b →
      (s.phase ≠ .idle → x.toNat < s.inLen.toNat → (∃ u, s.stream.read x.toNat = some u ∧ u ≠ v) →
        step s = .refused .streamChangedWhileBusy) ∧
      (s.phase = .idle → ∃ m : Memory, step s = .next { b with stream := m } ∧
        ∀ k, m.read k = if k = x.toNat then some v else s.stream.read k)) ∧
    (HostMoves s (.sinkWrite x v) b ∨ HostMoves s (.sinkRead x) b →
      s.phase ≠ .idle → s.outBase.toNat ≤ x.toNat →
      x.toNat < s.outBase.toNat + 4 * s.outCap.toNat ∨ x.toNat < s.outBase.toNat + 4 * s.total.toNat →
      step s = .refused .sinkAccessWhileBusy) ∧
    (HostMoves s (.sinkWrite x v) b → s.phase = .idle →
      ∃ m : Memory, step s = .next { b with sink := m } ∧
        ∀ k, m.read k = if k = x.toNat then some v else s.sink.read k) ∧
    (HostMoves s (.sinkRead x) b → s.phase = .idle →
      ∃ w : Word, step s = .next { b with hostData := w } ∧
        ∀ u, s.sink.read x.toNat = some u → w.toNat = u.toNat)

/-! ## Reset -/

/-- R163: the state when `rst` is released, from any state in which it was asserted: every register is
0, PHASE is IDLE, last_pixel is the zero pixel and irq is 0; reset writes neither S nor the sink. -/
def Obligations.ReleasedResetLeavesEveryRegisterZero : Prop :=
  ∀ s b : State, s.rst = true → HostMoves s .rstRelease b →
    ∃ t, step s = .next t ∧ t.rst = false ∧ RegistersReset t ∧
      t.stream = s.stream ∧ ∀ a, t.sink.read a = s.sink.read a

/-- R163: what `State.reset` holds where the spec gives the value. -/
def Obligations.ResetStateIsTheSpecs : Prop :=
  State.reset.ctrlWord = 0 ∧ State.reset.statusWord = 0 ∧ State.reset.inLen = 0 ∧
  State.reset.outBase = 0 ∧ State.reset.outCap = 0 ∧ State.reset.pos = 0 ∧ State.reset.width = 0 ∧
  State.reset.height = 0 ∧ State.reset.hdrInfo = 0 ∧ State.reset.total = 0 ∧
  State.reset.outIndex = 0 ∧ State.reset.lastPixel = ⟨0, 0, 0, 0⟩ ∧ State.reset.irq = false ∧
  State.reset.layout = .rgba8Bytes ∧ State.reset.rst = false

/-- R164: asserting `rst` replaces every register by its reset value and touches no byte of S. In a decode
past its header, each word of the image holds either its value from before the command or the one the
command's own units would leave it with, and no other sink byte changes; otherwise (IDLE, SNIFF, HEADER:
nothing has been written, R54, R107) no sink byte changes. (That the words are chosen by free draws, and
that the command's values are those of its remaining units, is the model's form, log entry 10.) -/
def Obligations.AbandonedDecodeLeavesOldOrNewWords : Prop :=
  (∀ s b : State, s.Inv → s.rst = false → s.decoding → HostMoves s .rstAssert b →
    ∃ t k u, step s = .next t ∧ Sys2Proof.core.run k { s with inbox := [] } = .next u ∧
      t.rst = true ∧ RegistersReset t ∧ t.stream = s.stream ∧
      (∀ i < s.total.toNat,
        (∀ q < 4, t.sink.read (s.outBase.toNat + 4 * i + q) =
          s.sinkBefore.read (s.outBase.toNat + 4 * i + q)) ∨
        (∀ q < 4, t.sink.read (s.outBase.toNat + 4 * i + q) =
          u.sink.read (s.outBase.toNat + 4 * i + q))) ∧
      ∀ a, a < s.outBase.toNat ∨ s.outBase.toNat + 4 * s.total.toNat ≤ a →
        t.sink.read a = s.sink.read a) ∧
  (∀ s b : State, s.rst = false → ¬ s.decoding → HostMoves s .rstAssert b →
    ∃ t, step s = .next t ∧ t.rst = true ∧ RegistersReset t ∧ t.stream = s.stream ∧
      ∀ a, t.sink.read a = s.sink.read a) ∧
  (∀ s b : State, s.rst = true → HostMoves s .rstAssert b → step s = .next b)

/-! ## The invariant, and the end of a decode -/

/-- The invariant holds at reset. -/
def Obligations.InvariantHoldsAtReset : Prop := State.reset.Inv

/-- R24, R30, R38, R39, R107, R119, R148 and the canonical form of the memories: every step, BLK's or
HOST's, keeps the invariant. -/
def Obligations.EveryStepKeepsTheInvariant : Prop :=
  ∀ s t : State, s.Inv → step s = .next t → t.Inv

/-- R120: a decode whose reads are all answered ends after at most 2 + max(0, IN_LEN - 14) BLK steps. -/
def Obligations.DecodeEndsWithinTheBound : Prop :=
  ∀ s : State, s.rst = false → s.inbox = [] → s.phase = .header →
    (∀ k < s.inLen.toNat, s.stream.read k ≠ none) →
    ∃ t, Sys2Proof.core.run (2 + (s.inLen.toNat - 14)) s = .next t ∧ t.phase = .idle ∧ t.done = true

/-! ## The assembler -/

/-- R87: RUNX n is floor(n/62) copies of RUN 62, followed by RUN (n mod 62) when that is not 0; the run
lengths sum to n. -/
def Obligations.RunxLengthsSumToN : Prop :=
  ∀ n : Nat, 1 ≤ n → ∃ runs last : List (BitVec 6),
    assembleItem (.runx n) = some ((runs ++ last).map fun f => 3#2 ++ f) ∧
    (∀ f ∈ runs ++ last, decode (.unit .opcode [3#2 ++ f]) = .ok (.run f, [])) ∧
    runs.length = n / 62 ∧ (∀ f ∈ runs, runLength f = 62) ∧
    last.map runLength = (if n % 62 = 0 then [] else [n % 62]) ∧
    ((runs ++ last).map runLength).sum = n

/-- R86: every item assembles exactly when its operands are in range, and then to bytes that decode to
those operands; an operand out of range is refused, never wrapped into another opcode (INDEX 64 would be
DIFF, RUN 63 would be RGB). `.byte` gives its bytes as they are, and `.footer` has no operand. -/
def Obligations.AssemblerRefusesOperandsOutOfRange : Prop :=
  (∀ w h c k : Int,
    (0 ≤ w ∧ w < 2 ^ 32 ∧ 0 ≤ h ∧ h < 2 ^ 32 ∧ 0 ≤ c ∧ c ≤ 255 ∧ 0 ≤ k ∧ k ≤ 255 →
      ∃ bs fw fh fc fk, assembleItem (.header w h c k) = some bs ∧
        decode (.unit .header bs) = .ok (.header 0x716F6966 fw fh fc fk, []) ∧
        (fw.toNat : Int) = w ∧ (fh.toNat : Int) = h ∧ (fc.toNat : Int) = c ∧ (fk.toNat : Int) = k) ∧
    (¬(0 ≤ w ∧ w < 2 ^ 32 ∧ 0 ≤ h ∧ h < 2 ^ 32 ∧ 0 ≤ c ∧ c ≤ 255 ∧ 0 ≤ k ∧ k ≤ 255) →
      assembleItem (.header w h c k) = none)) ∧
  (∀ r g b : Int,
    (0 ≤ r ∧ r ≤ 255 ∧ 0 ≤ g ∧ g ≤ 255 ∧ 0 ≤ b ∧ b ≤ 255 →
      ∃ bs fr fg fb, assembleItem (.rgb r g b) = some bs ∧
        decode (.unit .opcode bs) = .ok (.rgb fr fg fb, []) ∧
        (fr.toNat : Int) = r ∧ (fg.toNat : Int) = g ∧ (fb.toNat : Int) = b) ∧
    (¬(0 ≤ r ∧ r ≤ 255 ∧ 0 ≤ g ∧ g ≤ 255 ∧ 0 ≤ b ∧ b ≤ 255) → assembleItem (.rgb r g b) = none)) ∧
  (∀ r g b a : Int,
    (0 ≤ r ∧ r ≤ 255 ∧ 0 ≤ g ∧ g ≤ 255 ∧ 0 ≤ b ∧ b ≤ 255 ∧ 0 ≤ a ∧ a ≤ 255 →
      ∃ bs fr fg fb fa, assembleItem (.rgba r g b a) = some bs ∧
        decode (.unit .opcode bs) = .ok (.rgba fr fg fb fa, []) ∧
        (fr.toNat : Int) = r ∧ (fg.toNat : Int) = g ∧ (fb.toNat : Int) = b ∧ (fa.toNat : Int) = a) ∧
    (¬(0 ≤ r ∧ r ≤ 255 ∧ 0 ≤ g ∧ g ≤ 255 ∧ 0 ≤ b ∧ b ≤ 255 ∧ 0 ≤ a ∧ a ≤ 255) →
      assembleItem (.rgba r g b a) = none)) ∧
  (∀ k : Int, (0 ≤ k ∧ k ≤ 63 →
      ∃ bs f, assembleItem (.index k) = some bs ∧ decode (.unit .opcode bs) = .ok (.index f, []) ∧
        (f.toNat : Int) = k) ∧
    (¬(0 ≤ k ∧ k ≤ 63) → assembleItem (.index k) = none)) ∧
  (∀ dr dg db : Int, (-2 ≤ dr ∧ dr ≤ 1 ∧ -2 ≤ dg ∧ dg ≤ 1 ∧ -2 ≤ db ∧ db ≤ 1 →
      ∃ bs rr gg bb, assembleItem (.diff dr dg db) = some bs ∧
        decode (.unit .opcode bs) = .ok (.diff rr gg bb, []) ∧
        excess rr 2 = dr ∧ excess gg 2 = dg ∧ excess bb 2 = db) ∧
    (¬(-2 ≤ dr ∧ dr ≤ 1 ∧ -2 ≤ dg ∧ dg ≤ 1 ∧ -2 ≤ db ∧ db ≤ 1) → assembleItem (.diff dr dg db) = none)) ∧
  (∀ dg drg dbg : Int, (-32 ≤ dg ∧ dg ≤ 31 ∧ -8 ≤ drg ∧ drg ≤ 7 ∧ -8 ≤ dbg ∧ dbg ≤ 7 →
      ∃ bs gg rr bb, assembleItem (.luma dg drg dbg) = some bs ∧
        decode (.unit .opcode bs) = .ok (.luma gg rr bb, []) ∧
        excess gg 32 = dg ∧ excess rr 8 = drg ∧ excess bb 8 = dbg) ∧
    (¬(-32 ≤ dg ∧ dg ≤ 31 ∧ -8 ≤ drg ∧ drg ≤ 7 ∧ -8 ≤ dbg ∧ dbg ≤ 7) →
      assembleItem (.luma dg drg dbg) = none)) ∧
  (∀ n : Int, (1 ≤ n ∧ n ≤ 62 →
      ∃ bs f, assembleItem (.run n) = some bs ∧ decode (.unit .opcode bs) = .ok (.run f, []) ∧
        (runLength f : Int) = n) ∧
    (¬(1 ≤ n ∧ n ≤ 62) → assembleItem (.run n) = none)) ∧
  assembleItem .footer = some [0, 0, 0, 0, 0, 0, 0, 1] ∧
  (∀ vs : List Int, ((∀ v ∈ vs, 0 ≤ v ∧ v ≤ 255) →
      ∃ bs, assembleItem (.bytes vs) = some bs ∧ bs.map (fun x => (x.toNat : Int)) = vs) ∧
    (¬(∀ v ∈ vs, 0 ≤ v ∧ v ≤ 255) → assembleItem (.bytes vs) = none))
end

