-- ==== Sys2Proof/Laws/Decode.lean ====
section
/-! SUPPORT. Bytes of words, the tags of the opcodes, and what each unit's decoder answers. -/

namespace Sys2Proof

@[simp] theorem wordBytes_length (w : Word) : (wordBytes w).length = 4 := rfl

@[simp] theorem markerBytes_length (m : BitVec 64) : (markerBytes m).length = 8 := rfl

theorem wordByte_toNat (w : Word) (j : Nat) :
    (wordByte w j).toNat = w.toNat / 2 ^ (24 - 8 * j) % 2 ^ 8 := by
  simp only [wordByte, BitVec.extractLsb'_toNat, Nat.shiftRight_eq_div_pow]

theorem markerByte_toNat (m : BitVec 64) (j : Nat) :
    (markerByte m j).toNat = m.toNat / 2 ^ (56 - 8 * j) % 2 ^ 8 := by
  simp only [markerByte, BitVec.extractLsb'_toNat, Nat.shiftRight_eq_div_pow]

/-- Bits put before a byte: the number is the bits' number times 256, plus the byte. -/
theorem append_byte_toNat {n : Nat} (x : BitVec n) (b : Byte) :
    (x ++ b).toNat = x.toNat * 256 + b.toNat := by
  rw [BitVec.toNat_append, ← Nat.shiftLeft_add_eq_or_of_lt b.isLt, Nat.shiftLeft_eq]

theorem be32_toNat (a b c d : Byte) :
    (be32 a b c d).toNat = a.toNat * 2 ^ 24 + b.toNat * 2 ^ 16 + c.toNat * 2 ^ 8 + d.toNat := by
  simp only [be32, append_byte_toNat]
  omega

theorem be64_toNat (a b c d e f g h : Byte) :
    (be64 a b c d e f g h).toNat = a.toNat * 2 ^ 56 + b.toNat * 2 ^ 48 + c.toNat * 2 ^ 40 +
      d.toNat * 2 ^ 32 + e.toNat * 2 ^ 24 + f.toNat * 2 ^ 16 + g.toNat * 2 ^ 8 + h.toNat := by
  simp only [be64, append_byte_toNat]
  omega

/-- Four bytes of a word, put together again, are the word. -/
theorem be32_wordByte (w : Word) :
    be32 (wordByte w 0) (wordByte w 1) (wordByte w 2) (wordByte w 3) = w := by
  apply BitVec.eq_of_toNat_eq
  have := w.isLt
  simp only [be32_toNat, wordByte_toNat]
  omega

/-- The bytes of four bytes put together are those bytes. -/
theorem wordByte_be32 (a b c d : Byte) :
    wordByte (be32 a b c d) 0 = a ∧ wordByte (be32 a b c d) 1 = b ∧
    wordByte (be32 a b c d) 2 = c ∧ wordByte (be32 a b c d) 3 = d := by
  have := a.isLt; have := b.isLt; have := c.isLt; have := d.isLt
  refine ⟨?_, ?_, ?_, ?_⟩ <;> apply BitVec.eq_of_toNat_eq <;>
    simp only [be32_toNat, wordByte_toNat] <;> omega

theorem be64_markerByte (m : BitVec 64) :
    be64 (markerByte m 0) (markerByte m 1) (markerByte m 2) (markerByte m 3)
      (markerByte m 4) (markerByte m 5) (markerByte m 6) (markerByte m 7) = m := by
  apply BitVec.eq_of_toNat_eq
  have := m.isLt
  simp only [be64_toNat, markerByte_toNat]
  omega

theorem markerByte_be64 (a b c d e f g h : Byte) :
    markerByte (be64 a b c d e f g h) 0 = a ∧ markerByte (be64 a b c d e f g h) 1 = b ∧
    markerByte (be64 a b c d e f g h) 2 = c ∧ markerByte (be64 a b c d e f g h) 3 = d ∧
    markerByte (be64 a b c d e f g h) 4 = e ∧ markerByte (be64 a b c d e f g h) 5 = f ∧
    markerByte (be64 a b c d e f g h) 6 = g ∧ markerByte (be64 a b c d e f g h) 7 = h := by
  have := a.isLt; have := b.isLt; have := c.isLt; have := d.isLt
  have := e.isLt; have := f.isLt; have := g.isLt; have := h.isLt
  refine ⟨?_, ?_, ?_, ?_, ?_, ?_, ?_, ?_⟩ <;> apply BitVec.eq_of_toNat_eq <;>
    simp only [be64_toNat, markerByte_toNat] <;> omega

/-! ## Tags -/

theorem dispatch_rgb : dispatch 0xFE#8 = .rgb := rfl

theorem dispatch_rgba : dispatch 0xFF#8 = .rgba := rfl

/-- INDEX's byte (R77). -/
theorem index_tag : ∀ k : BitVec 6, dispatch (0#2 ++ k) = .index ∧ (0#2 ++ k).extractLsb' 0 6 = k := by
  decide

/-- DIFF's byte (R78). -/
theorem diff_tag : ∀ rr gg bb : BitVec 2, dispatch (1#2 ++ rr ++ gg ++ bb) = .diff ∧
    (1#2 ++ rr ++ gg ++ bb).extractLsb' 4 2 = rr ∧ (1#2 ++ rr ++ gg ++ bb).extractLsb' 2 2 = gg ∧
    (1#2 ++ rr ++ gg ++ bb).extractLsb' 0 2 = bb := by
  decide

/-- LUMA's tag (R79). -/
theorem luma_tag : ∀ gg : BitVec 6, dispatch (2#2 ++ gg) = .luma ∧ (2#2 ++ gg).extractLsb' 0 6 = gg := by
  decide

/-- LUMA's second byte (R79). -/
theorem luma_operand : ∀ rr bb : BitVec 4, (rr ++ bb).extractLsb' 4 4 = rr ∧ (rr ++ bb).extractLsb' 0 4 = bb := by
  decide

/-- RUN's byte (R80): fields 62 and 63 are RGB's and RGBA's tags. -/
theorem run_tag : ∀ n : BitVec 6, (n.toNat < 62 → dispatch (3#2 ++ n) = .run) ∧
    (3#2 ++ n).extractLsb' 0 6 = n := by
  decide

/-- Every opcode has at least its tag, and only RGB, RGBA and LUMA have operand bytes (R74, R113). -/
theorem Opcode.length_pos (o : Opcode) : 1 ≤ o.length := by cases o <;> decide

theorem Opcode.one_lt_length {o : Opcode} (h : 1 < o.length) : o ∈ [Opcode.rgb, .rgba, .luma] := by
  cases o <;> revert h <;> decide

/-! ## Decoders -/

/-- Fourteen bytes are a header (R70). -/
theorem decodeHeader_isOk {bs : List Byte} (h : bs.length = 14) :
    ∃ m w k c d, decodeHeader bs = .ok (.header m w k c d, []) := by
  match bs, h with
  | [h0, h1, h2, h3, h4, h5, h6, h7, h8, h9, h10, h11, h12, h13], _ => exact ⟨_, _, _, _, _, rfl⟩

/-- Eight bytes are a footer (R73). -/
theorem decodeFooter_isOk {bs : List Byte} (h : bs.length = 8) :
    ∃ m, decodeFooter bs = .ok (.footer m, []) := by
  match bs, h with
  | [f0, f1, f2, f3, f4, f5, f6, f7], _ => exact ⟨_, rfl⟩

/-! ## Fields and tags as numbers -/

/-- An appended bit vector as a number. -/
theorem append_toNat {n m : Nat} (x : BitVec n) (y : BitVec m) :
    (x ++ y).toNat = x.toNat * 2 ^ m + y.toNat := by
  rw [BitVec.toNat_append, ← Nat.shiftLeft_add_eq_or_of_lt y.isLt, Nat.shiftLeft_eq]

/-- One bit of a bit vector as a number. -/
theorem getLsbD_eq {n : Nat} (v : BitVec n) (k : Nat) :
    v.getLsbD k = decide (v.toNat / 2 ^ k % 2 = 1) := by
  have : v.getLsbD k = v.toNat.testBit k := rfl
  rw [this, Nat.testBit_eq_decide_div_mod_eq]

/-- The fields of a byte (R77 to R80). -/
theorem byte_fields : ∀ t : Byte,
    (t.extractLsb' 0 6).toNat = t.toNat % 64 ∧ (t.extractLsb' 4 2).toNat = t.toNat / 16 % 4 ∧
    (t.extractLsb' 2 2).toNat = t.toNat / 4 % 4 ∧ (t.extractLsb' 0 2).toNat = t.toNat % 4 ∧
    (t.extractLsb' 4 4).toNat = t.toNat / 16 ∧ (t.extractLsb' 0 4).toNat = t.toNat % 16 := by
  decide

/-- The ranges of the tags (R83). -/
theorem dispatch_ranges : ∀ t : Byte,
    (dispatch t = .index ↔ t.toNat < 0x40) ∧ (dispatch t = .diff ↔ 0x40 ≤ t.toNat ∧ t.toNat < 0x80) ∧
    (dispatch t = .luma ↔ 0x80 ≤ t.toNat ∧ t.toNat < 0xC0) ∧
    (dispatch t = .run ↔ 0xC0 ≤ t.toNat ∧ t.toNat < 0xFE) ∧
    (dispatch t = .rgb ↔ t.toNat = 0xFE) ∧ (dispatch t = .rgba ↔ t.toNat = 0xFF) := by
  decide

/-- A tag is its top bits and its field. -/
theorem tag_back : ∀ t : Byte,
    (dispatch t = .index → 0#2 ++ t.extractLsb' 0 6 = t) ∧
    (dispatch t = .diff → 1#2 ++ t.extractLsb' 4 2 ++ t.extractLsb' 2 2 ++ t.extractLsb' 0 2 = t) ∧
    (dispatch t = .luma → 2#2 ++ t.extractLsb' 0 6 = t) ∧
    (dispatch t = .run → 3#2 ++ t.extractLsb' 0 6 = t) ∧
    t.extractLsb' 4 4 ++ t.extractLsb' 0 4 = t := by
  decide

/-- A decoded opcode used exactly the bytes its tag asks for. -/
theorem decodeOpcode_length {bs : List Byte} {i : Instr} (h : decodeOpcode bs = .ok (i, [])) :
    ∃ t bs', bs = t :: bs' ∧ bs.length = (dispatch t).length := by
  rcases bs with _ | ⟨t, bs⟩
  · cases h
  · refine ⟨t, bs, rfl, ?_⟩
    simp only [decodeOpcode, decodeOperands] at h
    split at h <;> cases h <;> rename_i e <;> simp [e, Opcode.length]

end Sys2Proof
end

