-- ==== Sys2Proof/Laws/Memory.lean ====
section
/-! SUPPORT. Memory: reads after writes, frames, and that every operation keeps the canonical form. -/

namespace Sys2Proof.Machine

@[simp] theorem Memory.read_nil (k : Nat) : Memory.read [] k = none := rfl

theorem Memory.read_cons (a : Nat) (b : Byte) (m : Memory) (k : Nat) :
    Memory.read ((a, b) :: m) k = if a = k then some b else Memory.read m k := rfl

/-- An address below every listed one is not listed. -/
theorem Memory.read_none_of_lt {m : Memory} {k : Nat} (h : ∀ c ∈ m, k < c.1) : m.read k = none := by
  induction m with
  | nil => rfl
  | cons c m ih =>
    obtain ⟨a, b⟩ := c
    have ha : k < a := h (a, b) (by simp)
    simp only [Memory.read_cons, if_neg (Nat.ne_of_gt ha)]
    exact ih fun c hc => h c (List.mem_cons_of_mem _ hc)

theorem Memory.read_write (m : Memory) (k a : Nat) (b : Byte) :
    (m.write k b).read a = if k = a then some b else m.read a := by
  induction m with
  | nil => simp [Memory.write, Memory.read_cons]
  | cons c m ih =>
    obtain ⟨d, e⟩ := c
    simp only [Memory.write]
    split
    · simp [Memory.read_cons]
    · split
      · rename_i h; subst h
        by_cases hk : k = a <;> simp [Memory.read_cons, hk]
      · rename_i h₁ h₂
        by_cases hd : d = a
        · subst hd; simp [Memory.read_cons, h₂]
        · simp [Memory.read_cons, hd, ih]

@[simp] theorem Memory.read_write_same (m : Memory) (k : Nat) (b : Byte) :
    (m.write k b).read k = some b := by simp [Memory.read_write]

theorem Memory.read_write_ne (m : Memory) {k a : Nat} (b : Byte) (h : k ≠ a) :
    (m.write k b).read a = m.read a := by simp [Memory.read_write, h]

theorem Memory.mem_write {m : Memory} {k : Nat} {b : Byte} {c : Host.Cell} (h : c ∈ m.write k b) :
    c = (k, b) ∨ c ∈ m := by
  induction m with
  | nil => simpa [Memory.write] using h
  | cons d m ih =>
    obtain ⟨x, y⟩ := d
    simp only [Memory.write] at h
    split at h
    · simpa using h
    · split at h
      · rcases List.mem_cons.1 h with h | h
        · exact .inl h
        · exact .inr (List.mem_cons_of_mem _ h)
      · rcases List.mem_cons.1 h with h | h
        · exact .inr (by simp [h])
        · exact (ih h).imp_right (List.mem_cons_of_mem _)

/-- A write keeps the canonical form. -/
theorem Memory.wf_write {m : Memory} (h : m.wf) {k : Nat} (hk : k < 2 ^ 32) (b : Byte) :
    (m.write k b).wf := by
  induction m with
  | nil => simpa [Memory.write, Memory.wf] using hk
  | cons c m ih =>
    obtain ⟨x, y⟩ := c
    obtain ⟨hp, hb⟩ := h
    rw [List.pairwise_cons] at hp
    have htail : (Memory.wf m) := ⟨hp.2, fun c hc => hb c (List.mem_cons_of_mem _ hc)⟩
    have hx : x < 2 ^ 32 := hb (x, y) (by simp)
    simp only [Memory.write]
    split
    · rename_i hlt
      refine ⟨List.pairwise_cons.2 ⟨?_, List.pairwise_cons.2 hp⟩, ?_⟩
      · intro c hc
        rcases List.mem_cons.1 hc with rfl | hc
        · exact hlt
        · exact Nat.lt_trans hlt (hp.1 c hc)
      · intro c hc
        rcases List.mem_cons.1 hc with rfl | hc
        · exact hk
        · exact hb c hc
    · split
      · rename_i _ heq; subst heq
        refine ⟨List.pairwise_cons.2 ⟨fun c hc => hp.1 c hc, hp.2⟩, ?_⟩
        intro c hc
        rcases List.mem_cons.1 hc with rfl | hc
        · exact hk
        · exact htail.2 c hc
      · rename_i h₁ h₂
        obtain ⟨ip, ib⟩ := ih htail
        refine ⟨List.pairwise_cons.2 ⟨?_, ip⟩, ?_⟩
        · intro c hc
          rcases Memory.mem_write hc with rfl | hc
          · simp only; omega
          · exact hp.1 c hc
        · intro c hc
          rcases List.mem_cons.1 hc with rfl | hc
          · exact hx
          · exact ib c hc

theorem Memory.erase_sublist (m : Memory) (k : Nat) : (m.erase k).Sublist m := by
  induction m with
  | nil => exact List.Sublist.refl _
  | cons c m ih =>
    obtain ⟨x, y⟩ := c
    simp only [Memory.erase]
    split
    · exact List.sublist_cons_self _ _
    · exact ih.cons_cons _

/-- Taking a byte away keeps the canonical form. -/
theorem Memory.wf_erase {m : Memory} (h : m.wf) (k : Nat) : (m.erase k).wf :=
  ⟨h.1.sublist (m.erase_sublist k), fun c hc => h.2 c ((m.erase_sublist k).subset hc)⟩

theorem Memory.read_erase {m : Memory} (h : m.wf) (k a : Nat) :
    (m.erase k).read a = if k = a then none else m.read a := by
  induction m with
  | nil => simp [Memory.erase]
  | cons c m ih =>
    obtain ⟨x, y⟩ := c
    obtain ⟨hp, hb⟩ := h
    rw [List.pairwise_cons] at hp
    simp only [Memory.erase]
    split
    · rename_i hx; subst hx
      by_cases ha : x = a
      · subst ha; simpa using Memory.read_none_of_lt hp.1
      · simp [Memory.read_cons, ha]
    · rename_i hx
      have := ih ⟨hp.2, fun c hc => hb c (List.mem_cons_of_mem _ hc)⟩
      by_cases ha : x = a
      · subst ha; simp [Memory.read_cons, Ne.symm hx]
      · simp [Memory.read_cons, ha, this]

theorem Memory.wf_writeWord {m : Memory} (h : m.wf) (addr v : Word) : (m.writeWord addr v).wf :=
  Memory.wf_write (Memory.wf_write (Memory.wf_write (Memory.wf_write h addr.isLt _)
    (BitVec.isLt _) _) (BitVec.isLt _) _) (BitVec.isLt _) _

theorem Memory.wf_copyByte {m : Memory} (h : m.wf) (src : Memory) {a : Nat} (ha : a < 2 ^ 32) :
    (m.copyByte src a).wf := by
  unfold Memory.copyByte
  split
  · exact Memory.wf_write h ha _
  · exact Memory.wf_erase h a

theorem Memory.read_copyByte {m : Memory} (h : m.wf) (src : Memory) (k a : Nat) :
    (m.copyByte src k).read a = if k = a then src.read a else m.read a := by
  unfold Memory.copyByte
  split
  · rename_i b hb
    by_cases hk : k = a
    · subst hk; simp [hb]
    · simp [Memory.read_write, hk]
  · rename_i hb
    by_cases hk : k = a
    · subst hk; simp [Memory.read_erase h, hb]
    · simp [Memory.read_erase h, hk]

theorem Memory.wf_copyWord {m : Memory} (h : m.wf) (src : Memory) (addr : Word) :
    (m.copyWord src addr).wf :=
  Memory.wf_copyByte (Memory.wf_copyByte (Memory.wf_copyByte (Memory.wf_copyByte h src addr.isLt)
    src (BitVec.isLt _)) src (BitVec.isLt _)) src (BitVec.isLt _)

/-- The pixel writer keeps the canonical form. -/
theorem wf_writePixels (base v : Word) (n : Nat) :
    ∀ (i : Nat) {m : Memory}, m.wf → (writePixels base v i n m).wf := by
  induction n with
  | zero => intro i m h; exact h
  | succ n ih => intro i m h; exact ih (i + 1) (Memory.wf_writeWord h _ _)

/-- A word written: its four bytes, and every other address as before. -/
theorem Memory.read_writeWord (m : Memory) (addr v : Word) (a : Nat) :
    (m.writeWord addr v).read a =
      if (addr + 3).toNat = a then some (wordByte v 3)
      else if (addr + 2).toNat = a then some (wordByte v 2)
      else if (addr + 1).toNat = a then some (wordByte v 1)
      else if addr.toNat = a then some (wordByte v 0)
      else m.read a := by
  simp only [Memory.writeWord, Memory.read_write]

/-- A read of bytes succeeds exactly when every byte is there. -/
theorem readBytes_length {m : Memory} {n : Nat} :
    ∀ {off : Nat} {bs : List Byte}, readBytes m off n = some bs → bs.length = n := by
  induction n with
  | zero => intro off bs h; simp [readBytes] at h; simp [← h]
  | succ n ih =>
    intro off bs h
    simp only [readBytes] at h
    split at h
    · rename_i h₂
      cases h
      simp [ih h₂]
    · cases h

/-- The empty memory has the canonical form. -/
theorem Memory.wf_nil : Memory.wf [] := ⟨List.Pairwise.nil, fun _ h => by cases h⟩

/-- The memories of the state after reset have it. -/
theorem reset_memories_wf :
    State.reset.stream.wf ∧ State.reset.sink.wf ∧ State.reset.sinkBefore.wf :=
  ⟨Memory.wf_nil, Memory.wf_nil, Memory.wf_nil⟩

end Sys2Proof.Machine
end

