-- ==== Sys2Proof/Laws/State.lean ====
section
/-! SUPPORT. What each shared state update leaves in each field: one lemma a field, true by rfl. -/

namespace Sys2Proof.Machine

variable (s : State)

/-! ## setIe -/

@[simp] theorem setIe_ie (b : Bool) : (setIe b s).ie = b := rfl
@[simp] theorem setIe_done (b : Bool) : (setIe b s).done = s.done := rfl
@[simp] theorem setIe_ok (b : Bool) : (setIe b s).ok = s.ok := rfl
@[simp] theorem setIe_matched (b : Bool) : (setIe b s).matched = s.matched := rfl
@[simp] theorem setIe_err (b : Bool) : (setIe b s).err = s.err := rfl
@[simp] theorem setIe_detail (b : Bool) : (setIe b s).detail = s.detail := rfl
@[simp] theorem setIe_phase (b : Bool) : (setIe b s).phase = s.phase := rfl
@[simp] theorem setIe_inLen (b : Bool) : (setIe b s).inLen = s.inLen := rfl
@[simp] theorem setIe_outBaseHi (b : Bool) : (setIe b s).outBaseHi = s.outBaseHi := rfl
@[simp] theorem setIe_outCap (b : Bool) : (setIe b s).outCap = s.outCap := rfl
@[simp] theorem setIe_pos (b : Bool) : (setIe b s).pos = s.pos := rfl
@[simp] theorem setIe_width (b : Bool) : (setIe b s).width = s.width := rfl
@[simp] theorem setIe_height (b : Bool) : (setIe b s).height = s.height := rfl
@[simp] theorem setIe_channels (b : Bool) : (setIe b s).channels = s.channels := rfl
@[simp] theorem setIe_colorspace (b : Bool) : (setIe b s).colorspace = s.colorspace := rfl
@[simp] theorem setIe_total (b : Bool) : (setIe b s).total = s.total := rfl
@[simp] theorem setIe_outIndex (b : Bool) : (setIe b s).outIndex = s.outIndex := rfl
@[simp] theorem setIe_lastPixel (b : Bool) : (setIe b s).lastPixel = s.lastPixel := rfl
@[simp] theorem setIe_cache (b : Bool) : (setIe b s).cache = s.cache := rfl
@[simp] theorem setIe_rst (b : Bool) : (setIe b s).rst = s.rst := rfl
@[simp] theorem setIe_stream (b : Bool) : (setIe b s).stream = s.stream := rfl
@[simp] theorem setIe_sink (b : Bool) : (setIe b s).sink = s.sink := rfl
@[simp] theorem setIe_layout (b : Bool) : (setIe b s).layout = s.layout := rfl
@[simp] theorem setIe_csrBase (b : Bool) : (setIe b s).csrBase = s.csrBase := rfl
@[simp] theorem setIe_inbox (b : Bool) : (setIe b s).inbox = s.inbox := rfl
@[simp] theorem setIe_hostData (b : Bool) : (setIe b s).hostData = s.hostData := rfl
@[simp] theorem setIe_draws (b : Bool) : (setIe b s).draws = s.draws := rfl
@[simp] theorem setIe_sinkBefore (b : Bool) : (setIe b s).sinkBefore = s.sinkBefore := rfl
@[simp] theorem setIe_outBase (b : Bool) : (setIe b s).outBase = s.outBase := rfl

/-! ## clearResult -/

@[simp] theorem clearResult_ie : (clearResult s).ie = s.ie := rfl
@[simp] theorem clearResult_done : (clearResult s).done = false := rfl
@[simp] theorem clearResult_ok : (clearResult s).ok = false := rfl
@[simp] theorem clearResult_matched : (clearResult s).matched = s.matched := rfl
@[simp] theorem clearResult_err : (clearResult s).err = .noError := rfl
@[simp] theorem clearResult_detail : (clearResult s).detail = 0 := rfl
@[simp] theorem clearResult_phase : (clearResult s).phase = s.phase := rfl
@[simp] theorem clearResult_inLen : (clearResult s).inLen = s.inLen := rfl
@[simp] theorem clearResult_outBaseHi : (clearResult s).outBaseHi = s.outBaseHi := rfl
@[simp] theorem clearResult_outCap : (clearResult s).outCap = s.outCap := rfl
@[simp] theorem clearResult_pos : (clearResult s).pos = s.pos := rfl
@[simp] theorem clearResult_width : (clearResult s).width = s.width := rfl
@[simp] theorem clearResult_height : (clearResult s).height = s.height := rfl
@[simp] theorem clearResult_channels : (clearResult s).channels = s.channels := rfl
@[simp] theorem clearResult_colorspace : (clearResult s).colorspace = s.colorspace := rfl
@[simp] theorem clearResult_total : (clearResult s).total = s.total := rfl
@[simp] theorem clearResult_outIndex : (clearResult s).outIndex = s.outIndex := rfl
@[simp] theorem clearResult_lastPixel : (clearResult s).lastPixel = s.lastPixel := rfl
@[simp] theorem clearResult_cache : (clearResult s).cache = s.cache := rfl
@[simp] theorem clearResult_rst : (clearResult s).rst = s.rst := rfl
@[simp] theorem clearResult_stream : (clearResult s).stream = s.stream := rfl
@[simp] theorem clearResult_sink : (clearResult s).sink = s.sink := rfl
@[simp] theorem clearResult_layout : (clearResult s).layout = s.layout := rfl
@[simp] theorem clearResult_csrBase : (clearResult s).csrBase = s.csrBase := rfl
@[simp] theorem clearResult_inbox : (clearResult s).inbox = s.inbox := rfl
@[simp] theorem clearResult_hostData : (clearResult s).hostData = s.hostData := rfl
@[simp] theorem clearResult_draws : (clearResult s).draws = s.draws := rfl
@[simp] theorem clearResult_sinkBefore : (clearResult s).sinkBefore = s.sinkBefore := rfl
@[simp] theorem clearResult_outBase : (clearResult s).outBase = s.outBase := rfl

/-! ## setMatch -/

@[simp] theorem setMatch_ie (m : Bool) : (setMatch m s).ie = s.ie := rfl
@[simp] theorem setMatch_done (m : Bool) : (setMatch m s).done = s.done := rfl
@[simp] theorem setMatch_ok (m : Bool) : (setMatch m s).ok = s.ok := rfl
@[simp] theorem setMatch_matched (m : Bool) : (setMatch m s).matched = m := rfl
@[simp] theorem setMatch_err (m : Bool) : (setMatch m s).err = s.err := rfl
@[simp] theorem setMatch_detail (m : Bool) : (setMatch m s).detail = s.detail := rfl
@[simp] theorem setMatch_phase (m : Bool) : (setMatch m s).phase = s.phase := rfl
@[simp] theorem setMatch_inLen (m : Bool) : (setMatch m s).inLen = s.inLen := rfl
@[simp] theorem setMatch_outBaseHi (m : Bool) : (setMatch m s).outBaseHi = s.outBaseHi := rfl
@[simp] theorem setMatch_outCap (m : Bool) : (setMatch m s).outCap = s.outCap := rfl
@[simp] theorem setMatch_pos (m : Bool) : (setMatch m s).pos = s.pos := rfl
@[simp] theorem setMatch_width (m : Bool) : (setMatch m s).width = s.width := rfl
@[simp] theorem setMatch_height (m : Bool) : (setMatch m s).height = s.height := rfl
@[simp] theorem setMatch_channels (m : Bool) : (setMatch m s).channels = s.channels := rfl
@[simp] theorem setMatch_colorspace (m : Bool) : (setMatch m s).colorspace = s.colorspace := rfl
@[simp] theorem setMatch_total (m : Bool) : (setMatch m s).total = s.total := rfl
@[simp] theorem setMatch_outIndex (m : Bool) : (setMatch m s).outIndex = s.outIndex := rfl
@[simp] theorem setMatch_lastPixel (m : Bool) : (setMatch m s).lastPixel = s.lastPixel := rfl
@[simp] theorem setMatch_cache (m : Bool) : (setMatch m s).cache = s.cache := rfl
@[simp] theorem setMatch_rst (m : Bool) : (setMatch m s).rst = s.rst := rfl
@[simp] theorem setMatch_stream (m : Bool) : (setMatch m s).stream = s.stream := rfl
@[simp] theorem setMatch_sink (m : Bool) : (setMatch m s).sink = s.sink := rfl
@[simp] theorem setMatch_layout (m : Bool) : (setMatch m s).layout = s.layout := rfl
@[simp] theorem setMatch_csrBase (m : Bool) : (setMatch m s).csrBase = s.csrBase := rfl
@[simp] theorem setMatch_inbox (m : Bool) : (setMatch m s).inbox = s.inbox := rfl
@[simp] theorem setMatch_hostData (m : Bool) : (setMatch m s).hostData = s.hostData := rfl
@[simp] theorem setMatch_draws (m : Bool) : (setMatch m s).draws = s.draws := rfl
@[simp] theorem setMatch_sinkBefore (m : Bool) : (setMatch m s).sinkBefore = s.sinkBefore := rfl
@[simp] theorem setMatch_outBase (m : Bool) : (setMatch m s).outBase = s.outBase := rfl

/-! ## raiseErr -/

@[simp] theorem raiseErr_ie (e : ErrKind) (d : BitVec 4) : (raiseErr e d s).ie = s.ie := rfl
@[simp] theorem raiseErr_done (e : ErrKind) (d : BitVec 4) : (raiseErr e d s).done = true := rfl
@[simp] theorem raiseErr_ok (e : ErrKind) (d : BitVec 4) : (raiseErr e d s).ok = false := rfl
@[simp] theorem raiseErr_matched (e : ErrKind) (d : BitVec 4) : (raiseErr e d s).matched = s.matched := rfl
@[simp] theorem raiseErr_err (e : ErrKind) (d : BitVec 4) : (raiseErr e d s).err = e := rfl
@[simp] theorem raiseErr_detail (e : ErrKind) (d : BitVec 4) : (raiseErr e d s).detail = d := rfl
@[simp] theorem raiseErr_phase (e : ErrKind) (d : BitVec 4) : (raiseErr e d s).phase = .idle := rfl
@[simp] theorem raiseErr_inLen (e : ErrKind) (d : BitVec 4) : (raiseErr e d s).inLen = s.inLen := rfl
@[simp] theorem raiseErr_outBaseHi (e : ErrKind) (d : BitVec 4) : (raiseErr e d s).outBaseHi = s.outBaseHi := rfl
@[simp] theorem raiseErr_outCap (e : ErrKind) (d : BitVec 4) : (raiseErr e d s).outCap = s.outCap := rfl
@[simp] theorem raiseErr_pos (e : ErrKind) (d : BitVec 4) : (raiseErr e d s).pos = s.pos := rfl
@[simp] theorem raiseErr_width (e : ErrKind) (d : BitVec 4) : (raiseErr e d s).width = s.width := rfl
@[simp] theorem raiseErr_height (e : ErrKind) (d : BitVec 4) : (raiseErr e d s).height = s.height := rfl
@[simp] theorem raiseErr_channels (e : ErrKind) (d : BitVec 4) : (raiseErr e d s).channels = s.channels := rfl
@[simp] theorem raiseErr_colorspace (e : ErrKind) (d : BitVec 4) : (raiseErr e d s).colorspace = s.colorspace := rfl
@[simp] theorem raiseErr_total (e : ErrKind) (d : BitVec 4) : (raiseErr e d s).total = s.total := rfl
@[simp] theorem raiseErr_outIndex (e : ErrKind) (d : BitVec 4) : (raiseErr e d s).outIndex = s.outIndex := rfl
@[simp] theorem raiseErr_lastPixel (e : ErrKind) (d : BitVec 4) : (raiseErr e d s).lastPixel = s.lastPixel := rfl
@[simp] theorem raiseErr_cache (e : ErrKind) (d : BitVec 4) : (raiseErr e d s).cache = s.cache := rfl
@[simp] theorem raiseErr_rst (e : ErrKind) (d : BitVec 4) : (raiseErr e d s).rst = s.rst := rfl
@[simp] theorem raiseErr_stream (e : ErrKind) (d : BitVec 4) : (raiseErr e d s).stream = s.stream := rfl
@[simp] theorem raiseErr_sink (e : ErrKind) (d : BitVec 4) : (raiseErr e d s).sink = s.sink := rfl
@[simp] theorem raiseErr_layout (e : ErrKind) (d : BitVec 4) : (raiseErr e d s).layout = s.layout := rfl
@[simp] theorem raiseErr_csrBase (e : ErrKind) (d : BitVec 4) : (raiseErr e d s).csrBase = s.csrBase := rfl
@[simp] theorem raiseErr_inbox (e : ErrKind) (d : BitVec 4) : (raiseErr e d s).inbox = s.inbox := rfl
@[simp] theorem raiseErr_hostData (e : ErrKind) (d : BitVec 4) : (raiseErr e d s).hostData = s.hostData := rfl
@[simp] theorem raiseErr_draws (e : ErrKind) (d : BitVec 4) : (raiseErr e d s).draws = s.draws := rfl
@[simp] theorem raiseErr_sinkBefore (e : ErrKind) (d : BitVec 4) : (raiseErr e d s).sinkBefore = s.sinkBefore := rfl
@[simp] theorem raiseErr_outBase (e : ErrKind) (d : BitVec 4) : (raiseErr e d s).outBase = s.outBase := rfl

/-! ## complete -/

@[simp] theorem complete_ie : (complete s).ie = s.ie := rfl
@[simp] theorem complete_done : (complete s).done = true := rfl
@[simp] theorem complete_ok : (complete s).ok = true := rfl
@[simp] theorem complete_matched : (complete s).matched = s.matched := rfl
@[simp] theorem complete_err : (complete s).err = .noError := rfl
@[simp] theorem complete_detail : (complete s).detail = 0 := rfl
@[simp] theorem complete_phase : (complete s).phase = .idle := rfl
@[simp] theorem complete_inLen : (complete s).inLen = s.inLen := rfl
@[simp] theorem complete_outBaseHi : (complete s).outBaseHi = s.outBaseHi := rfl
@[simp] theorem complete_outCap : (complete s).outCap = s.outCap := rfl
@[simp] theorem complete_pos : (complete s).pos = s.pos := rfl
@[simp] theorem complete_width : (complete s).width = s.width := rfl
@[simp] theorem complete_height : (complete s).height = s.height := rfl
@[simp] theorem complete_channels : (complete s).channels = s.channels := rfl
@[simp] theorem complete_colorspace : (complete s).colorspace = s.colorspace := rfl
@[simp] theorem complete_total : (complete s).total = s.total := rfl
@[simp] theorem complete_outIndex : (complete s).outIndex = s.outIndex := rfl
@[simp] theorem complete_lastPixel : (complete s).lastPixel = s.lastPixel := rfl
@[simp] theorem complete_cache : (complete s).cache = s.cache := rfl
@[simp] theorem complete_rst : (complete s).rst = s.rst := rfl
@[simp] theorem complete_stream : (complete s).stream = s.stream := rfl
@[simp] theorem complete_sink : (complete s).sink = s.sink := rfl
@[simp] theorem complete_layout : (complete s).layout = s.layout := rfl
@[simp] theorem complete_csrBase : (complete s).csrBase = s.csrBase := rfl
@[simp] theorem complete_inbox : (complete s).inbox = s.inbox := rfl
@[simp] theorem complete_hostData : (complete s).hostData = s.hostData := rfl
@[simp] theorem complete_draws : (complete s).draws = s.draws := rfl
@[simp] theorem complete_sinkBefore : (complete s).sinkBefore = s.sinkBefore := rfl
@[simp] theorem complete_outBase : (complete s).outBase = s.outBase := rfl

/-! ## acknowledge -/

@[simp] theorem acknowledge_ie : (acknowledge s).ie = s.ie := rfl
@[simp] theorem acknowledge_done : (acknowledge s).done = false := rfl
@[simp] theorem acknowledge_ok : (acknowledge s).ok = s.ok := rfl
@[simp] theorem acknowledge_matched : (acknowledge s).matched = s.matched := rfl
@[simp] theorem acknowledge_err : (acknowledge s).err = s.err := rfl
@[simp] theorem acknowledge_detail : (acknowledge s).detail = s.detail := rfl
@[simp] theorem acknowledge_phase : (acknowledge s).phase = s.phase := rfl
@[simp] theorem acknowledge_inLen : (acknowledge s).inLen = s.inLen := rfl
@[simp] theorem acknowledge_outBaseHi : (acknowledge s).outBaseHi = s.outBaseHi := rfl
@[simp] theorem acknowledge_outCap : (acknowledge s).outCap = s.outCap := rfl
@[simp] theorem acknowledge_pos : (acknowledge s).pos = s.pos := rfl
@[simp] theorem acknowledge_width : (acknowledge s).width = s.width := rfl
@[simp] theorem acknowledge_height : (acknowledge s).height = s.height := rfl
@[simp] theorem acknowledge_channels : (acknowledge s).channels = s.channels := rfl
@[simp] theorem acknowledge_colorspace : (acknowledge s).colorspace = s.colorspace := rfl
@[simp] theorem acknowledge_total : (acknowledge s).total = s.total := rfl
@[simp] theorem acknowledge_outIndex : (acknowledge s).outIndex = s.outIndex := rfl
@[simp] theorem acknowledge_lastPixel : (acknowledge s).lastPixel = s.lastPixel := rfl
@[simp] theorem acknowledge_cache : (acknowledge s).cache = s.cache := rfl
@[simp] theorem acknowledge_rst : (acknowledge s).rst = s.rst := rfl
@[simp] theorem acknowledge_stream : (acknowledge s).stream = s.stream := rfl
@[simp] theorem acknowledge_sink : (acknowledge s).sink = s.sink := rfl
@[simp] theorem acknowledge_layout : (acknowledge s).layout = s.layout := rfl
@[simp] theorem acknowledge_csrBase : (acknowledge s).csrBase = s.csrBase := rfl
@[simp] theorem acknowledge_inbox : (acknowledge s).inbox = s.inbox := rfl
@[simp] theorem acknowledge_hostData : (acknowledge s).hostData = s.hostData := rfl
@[simp] theorem acknowledge_draws : (acknowledge s).draws = s.draws := rfl
@[simp] theorem acknowledge_sinkBefore : (acknowledge s).sinkBefore = s.sinkBefore := rfl
@[simp] theorem acknowledge_outBase : (acknowledge s).outBase = s.outBase := rfl

/-! ## commit -/

@[simp] theorem commit_ie (px : Pixel) (n len : Nat) : (commit px n len s).ie = s.ie := rfl
@[simp] theorem commit_done (px : Pixel) (n len : Nat) : (commit px n len s).done = s.done := rfl
@[simp] theorem commit_ok (px : Pixel) (n len : Nat) : (commit px n len s).ok = s.ok := rfl
@[simp] theorem commit_matched (px : Pixel) (n len : Nat) : (commit px n len s).matched = s.matched := rfl
@[simp] theorem commit_err (px : Pixel) (n len : Nat) : (commit px n len s).err = s.err := rfl
@[simp] theorem commit_detail (px : Pixel) (n len : Nat) : (commit px n len s).detail = s.detail := rfl
@[simp] theorem commit_phase (px : Pixel) (n len : Nat) : (commit px n len s).phase = if (s.outIndex + BitVec.ofNat 32 n).toNat = s.total.toNat then .footer else s.phase := rfl
@[simp] theorem commit_inLen (px : Pixel) (n len : Nat) : (commit px n len s).inLen = s.inLen := rfl
@[simp] theorem commit_outBaseHi (px : Pixel) (n len : Nat) : (commit px n len s).outBaseHi = s.outBaseHi := rfl
@[simp] theorem commit_outCap (px : Pixel) (n len : Nat) : (commit px n len s).outCap = s.outCap := rfl
@[simp] theorem commit_pos (px : Pixel) (n len : Nat) : (commit px n len s).pos = s.pos + BitVec.ofNat 32 len := rfl
@[simp] theorem commit_width (px : Pixel) (n len : Nat) : (commit px n len s).width = s.width := rfl
@[simp] theorem commit_height (px : Pixel) (n len : Nat) : (commit px n len s).height = s.height := rfl
@[simp] theorem commit_channels (px : Pixel) (n len : Nat) : (commit px n len s).channels = s.channels := rfl
@[simp] theorem commit_colorspace (px : Pixel) (n len : Nat) : (commit px n len s).colorspace = s.colorspace := rfl
@[simp] theorem commit_total (px : Pixel) (n len : Nat) : (commit px n len s).total = s.total := rfl
@[simp] theorem commit_outIndex (px : Pixel) (n len : Nat) : (commit px n len s).outIndex = s.outIndex + BitVec.ofNat 32 n := rfl
@[simp] theorem commit_lastPixel (px : Pixel) (n len : Nat) : (commit px n len s).lastPixel = px := rfl
@[simp] theorem commit_cache (px : Pixel) (n len : Nat) : (commit px n len s).cache = cacheStore s.cache px := rfl
@[simp] theorem commit_rst (px : Pixel) (n len : Nat) : (commit px n len s).rst = s.rst := rfl
@[simp] theorem commit_stream (px : Pixel) (n len : Nat) : (commit px n len s).stream = s.stream := rfl
@[simp] theorem commit_sink (px : Pixel) (n len : Nat) : (commit px n len s).sink = writePixels s.outBase (layoutWord s.layout px) s.outIndex.toNat n s.sink := rfl
@[simp] theorem commit_layout (px : Pixel) (n len : Nat) : (commit px n len s).layout = s.layout := rfl
@[simp] theorem commit_csrBase (px : Pixel) (n len : Nat) : (commit px n len s).csrBase = s.csrBase := rfl
@[simp] theorem commit_inbox (px : Pixel) (n len : Nat) : (commit px n len s).inbox = s.inbox := rfl
@[simp] theorem commit_hostData (px : Pixel) (n len : Nat) : (commit px n len s).hostData = s.hostData := rfl
@[simp] theorem commit_draws (px : Pixel) (n len : Nat) : (commit px n len s).draws = s.draws := rfl
@[simp] theorem commit_sinkBefore (px : Pixel) (n len : Nat) : (commit px n len s).sinkBefore = s.sinkBefore := rfl
@[simp] theorem commit_outBase (px : Pixel) (n len : Nat) : (commit px n len s).outBase = s.outBase := rfl

/-! ## loadHeader -/

@[simp] theorem loadHeader_ie (w h : Word) (c k : Byte) : (loadHeader w h c k s).ie = s.ie := rfl
@[simp] theorem loadHeader_done (w h : Word) (c k : Byte) : (loadHeader w h c k s).done = s.done := rfl
@[simp] theorem loadHeader_ok (w h : Word) (c k : Byte) : (loadHeader w h c k s).ok = s.ok := rfl
@[simp] theorem loadHeader_matched (w h : Word) (c k : Byte) : (loadHeader w h c k s).matched = s.matched := rfl
@[simp] theorem loadHeader_err (w h : Word) (c k : Byte) : (loadHeader w h c k s).err = s.err := rfl
@[simp] theorem loadHeader_detail (w h : Word) (c k : Byte) : (loadHeader w h c k s).detail = s.detail := rfl
@[simp] theorem loadHeader_phase (w h : Word) (c k : Byte) : (loadHeader w h c k s).phase = s.phase := rfl
@[simp] theorem loadHeader_inLen (w h : Word) (c k : Byte) : (loadHeader w h c k s).inLen = s.inLen := rfl
@[simp] theorem loadHeader_outBaseHi (w h : Word) (c k : Byte) : (loadHeader w h c k s).outBaseHi = s.outBaseHi := rfl
@[simp] theorem loadHeader_outCap (w h : Word) (c k : Byte) : (loadHeader w h c k s).outCap = s.outCap := rfl
@[simp] theorem loadHeader_pos (w h : Word) (c k : Byte) : (loadHeader w h c k s).pos = s.pos := rfl
@[simp] theorem loadHeader_width (w h : Word) (c k : Byte) : (loadHeader w h c k s).width = w := rfl
@[simp] theorem loadHeader_height (w h : Word) (c k : Byte) : (loadHeader w h c k s).height = h := rfl
@[simp] theorem loadHeader_channels (w h : Word) (c k : Byte) : (loadHeader w h c k s).channels = c := rfl
@[simp] theorem loadHeader_colorspace (w h : Word) (c k : Byte) : (loadHeader w h c k s).colorspace = k := rfl
@[simp] theorem loadHeader_total (w h : Word) (c k : Byte) : (loadHeader w h c k s).total = totalOf w h := rfl
@[simp] theorem loadHeader_outIndex (w h : Word) (c k : Byte) : (loadHeader w h c k s).outIndex = s.outIndex := rfl
@[simp] theorem loadHeader_lastPixel (w h : Word) (c k : Byte) : (loadHeader w h c k s).lastPixel = s.lastPixel := rfl
@[simp] theorem loadHeader_cache (w h : Word) (c k : Byte) : (loadHeader w h c k s).cache = s.cache := rfl
@[simp] theorem loadHeader_rst (w h : Word) (c k : Byte) : (loadHeader w h c k s).rst = s.rst := rfl
@[simp] theorem loadHeader_stream (w h : Word) (c k : Byte) : (loadHeader w h c k s).stream = s.stream := rfl
@[simp] theorem loadHeader_sink (w h : Word) (c k : Byte) : (loadHeader w h c k s).sink = s.sink := rfl
@[simp] theorem loadHeader_layout (w h : Word) (c k : Byte) : (loadHeader w h c k s).layout = s.layout := rfl
@[simp] theorem loadHeader_csrBase (w h : Word) (c k : Byte) : (loadHeader w h c k s).csrBase = s.csrBase := rfl
@[simp] theorem loadHeader_inbox (w h : Word) (c k : Byte) : (loadHeader w h c k s).inbox = s.inbox := rfl
@[simp] theorem loadHeader_hostData (w h : Word) (c k : Byte) : (loadHeader w h c k s).hostData = s.hostData := rfl
@[simp] theorem loadHeader_draws (w h : Word) (c k : Byte) : (loadHeader w h c k s).draws = s.draws := rfl
@[simp] theorem loadHeader_sinkBefore (w h : Word) (c k : Byte) : (loadHeader w h c k s).sinkBefore = s.sinkBefore := rfl
@[simp] theorem loadHeader_outBase (w h : Word) (c k : Byte) : (loadHeader w h c k s).outBase = s.outBase := rfl

/-! ## initDecode -/

@[simp] theorem initDecode_ie : (initDecode s).ie = s.ie := rfl
@[simp] theorem initDecode_done : (initDecode s).done = s.done := rfl
@[simp] theorem initDecode_ok : (initDecode s).ok = s.ok := rfl
@[simp] theorem initDecode_matched : (initDecode s).matched = s.matched := rfl
@[simp] theorem initDecode_err : (initDecode s).err = s.err := rfl
@[simp] theorem initDecode_detail : (initDecode s).detail = s.detail := rfl
@[simp] theorem initDecode_phase : (initDecode s).phase = if s.total.toNat = 0 then .footer else .ops := rfl
@[simp] theorem initDecode_inLen : (initDecode s).inLen = s.inLen := rfl
@[simp] theorem initDecode_outBaseHi : (initDecode s).outBaseHi = s.outBaseHi := rfl
@[simp] theorem initDecode_outCap : (initDecode s).outCap = s.outCap := rfl
@[simp] theorem initDecode_pos : (initDecode s).pos = BitVec.ofNat 32 Config.hdrLen := rfl
@[simp] theorem initDecode_width : (initDecode s).width = s.width := rfl
@[simp] theorem initDecode_height : (initDecode s).height = s.height := rfl
@[simp] theorem initDecode_channels : (initDecode s).channels = s.channels := rfl
@[simp] theorem initDecode_colorspace : (initDecode s).colorspace = s.colorspace := rfl
@[simp] theorem initDecode_total : (initDecode s).total = s.total := rfl
@[simp] theorem initDecode_outIndex : (initDecode s).outIndex = 0 := rfl
@[simp] theorem initDecode_lastPixel : (initDecode s).lastPixel = Pixel.seed := rfl
@[simp] theorem initDecode_cache : (initDecode s).cache = Vector.replicate 64 Pixel.zero := rfl
@[simp] theorem initDecode_rst : (initDecode s).rst = s.rst := rfl
@[simp] theorem initDecode_stream : (initDecode s).stream = s.stream := rfl
@[simp] theorem initDecode_sink : (initDecode s).sink = s.sink := rfl
@[simp] theorem initDecode_layout : (initDecode s).layout = s.layout := rfl
@[simp] theorem initDecode_csrBase : (initDecode s).csrBase = s.csrBase := rfl
@[simp] theorem initDecode_inbox : (initDecode s).inbox = s.inbox := rfl
@[simp] theorem initDecode_hostData : (initDecode s).hostData = s.hostData := rfl
@[simp] theorem initDecode_draws : (initDecode s).draws = s.draws := rfl
@[simp] theorem initDecode_sinkBefore : (initDecode s).sinkBefore = s.sinkBefore := rfl
@[simp] theorem initDecode_outBase : (initDecode s).outBase = s.outBase := rfl

end Sys2Proof.Machine
end

