-- ==== Sys2Proof/Laws/Ops.lean ====
section
/-! SUPPORT. What the shared operations can do: the cache, the pixel writer, the opcode unit, the header's and the
footer's checks. -/

namespace Sys2Proof.Machine

/-! ## The colour cache -/

/-- A store changes the slot hash(p) and no other (R129). -/
theorem cacheStore_get (cache : Vector Pixel 64) (p : Pixel) (k : BitVec 6) :
    (cacheStore cache p)[k.toNat]'(k.isLt) = (if k = pixelHash p then p else (cache[k.toNat]'(k.isLt))) := by
  unfold cacheStore
  by_cases h : k = pixelHash p
  · subst h; simp
  · have : (pixelHash p).toNat ≠ k.toNat := fun e => h (BitVec.eq_of_toNat_eq e.symm)
    simp [h, Vector.getElem_set_ne, this]

theorem pixelHash_toNat (p : Pixel) : (pixelHash p).toNat = hashSum p % 64 := by
  simp [pixelHash, BitVec.toNat_ofNat]

/-! ## Sink addresses -/

/-- OUT_BASE is a multiple of 4 (R32). -/
theorem State.outBase_toNat (s : State) : s.outBase.toNat = s.outBaseHi.toNat * 4 := by
  simp only [State.outBase, BitVec.toNat_append, BitVec.toNat_ofNat]
  rw [← Nat.shiftLeft_add_eq_or_of_lt (by omega), Nat.shiftLeft_eq]
  omega

theorem sinkAddr_toNat (base : Word) (i : Nat) :
    (sinkAddr base i).toNat = (base.toNat + 4 * i) % 2 ^ 32 := by
  simp [sinkAddr, BitVec.toNat_add, BitVec.toNat_ofNat]

/-- A pixel's address is a multiple of 4 (R53). -/
theorem State.sinkAddr_mod (s : State) (i : Nat) : (sinkAddr s.outBase i).toNat % 4 = 0 := by
  rw [sinkAddr_toNat, State.outBase_toNat]
  omega

/-- The bytes of an aligned word lie at consecutive addresses. -/
theorem aligned_add {a : Word} (h : a.toNat % 4 = 0) {q : Word} (hq : q.toNat < 4) :
    (a + q).toNat = a.toNat + q.toNat := by
  have := a.isLt
  rw [BitVec.toNat_add]
  omega

/-! ## The pixel writer -/

/-- A written word, byte by byte. -/
theorem Memory.read_writeWord_aligned (m : Memory) {addr : Word} (h : addr.toNat % 4 = 0) (v : Word)
    (a : Nat) :
    (∀ q < 4, a = addr.toNat + q → (m.writeWord addr v).read a = some (wordByte v q)) ∧
    ((∀ q < 4, a ≠ addr.toNat + q) → (m.writeWord addr v).read a = m.read a) := by
  have h1 : (addr + 1).toNat = addr.toNat + 1 := aligned_add h (by decide)
  have h2 : (addr + 2).toNat = addr.toNat + 2 := aligned_add h (by decide)
  have h3 : (addr + 3).toNat = addr.toNat + 3 := aligned_add h (by decide)
  rw [Memory.read_writeWord, h1, h2, h3]
  constructor
  · intro q hq ha
    subst ha
    interval_cases q <;> simp
  · intro ha
    have := ha 0; have := ha 1; have := ha 2; have := ha 3
    split_ifs <;> first | rfl | omega

/-- Pixels written at aligned addresses: their bytes (all of one packed pixel), and every other
address as before (R116, R141). -/
theorem writePixels_read (base v : Word) (hb : ∀ i, (sinkAddr base i).toNat % 4 = 0) (a : Nat) (n : Nat) :
    ∀ (i : Nat) (m : Memory),
    (∀ j < n, ∀ q < 4, a = (sinkAddr base (i + j)).toNat + q →
      (writePixels base v i n m).read a = some (wordByte v q)) ∧
    ((∀ j < n, ∀ q < 4, a ≠ (sinkAddr base (i + j)).toNat + q) →
      (writePixels base v i n m).read a = m.read a) := by
  induction n with
  | zero => intro i m; exact ⟨fun j hj => absurd hj (Nat.not_lt_zero _), fun _ => rfl⟩
  | succ n ih =>
    intro i m
    obtain ⟨hit, miss⟩ := ih (i + 1) (m.writeWord (sinkAddr base i) v)
    obtain ⟨whit, wmiss⟩ := Memory.read_writeWord_aligned m (hb i) v a
    constructor
    · intro j hj q hq ha
      by_cases later : ∃ j' < n, ∃ q' < 4, a = (sinkAddr base (i + 1 + j')).toNat + q'
      · obtain ⟨j', hj', q', hq', ha'⟩ := later
        have := hb (i + j); have := hb (i + 1 + j')
        have : q' = q := by omega
        subst this
        exact hit j' hj' q' hq' ha'
      · have hmiss := miss fun j' hj' q' hq' ha' => later ⟨j', hj', q', hq', ha'⟩
        rcases j with _ | j
        · exact hmiss.trans (whit q hq ha)
        · exact absurd ⟨j, by omega, q, hq, by rw [ha, show i + 1 + j = i + (j + 1) by omega]⟩ later
    · intro ha
      refine (miss fun j hj q hq e => ha (j + 1) (by omega) q hq ?_).trans
        (wmiss fun q hq e => ha 0 (by omega) q hq e)
      rw [e, show i + 1 + j = i + (j + 1) by omega]

/-! ## The opcode unit -/

/-- All an opcode unit can do (R110): one of three raises, each under its condition, or the commit. -/
theorem opcodeUnit_cases (len : Nat) (px : Pixel) (n : Nat) (s : State) :
    (s.inLen.toNat ≤ s.pos.toNat ∧ opcodeUnit len px n s = raiseErr .truncatedInput 2 s) ∨
    (s.pos.toNat < s.inLen.toNat ∧ s.inLen.toNat < s.pos.toNat + len ∧
      opcodeUnit len px n s = raiseErr .truncatedInput 3 s) ∨
    (s.pos.toNat < s.inLen.toNat ∧ s.pos.toNat + len ≤ s.inLen.toNat ∧
      s.total.toNat < s.outIndex.toNat + n ∧ opcodeUnit len px n s = raiseErr .truncatedInput 4 s) ∨
    (s.pos.toNat < s.inLen.toNat ∧ s.pos.toNat + len ≤ s.inLen.toNat ∧
      s.outIndex.toNat + n ≤ s.total.toNat ∧ opcodeUnit len px n s = commit px n len s) := by
  unfold opcodeUnit
  split
  · exact .inl ⟨‹_›, rfl⟩
  · split
    · exact .inr (.inl ⟨by omega, ‹_›, rfl⟩)
    · split
      · exact .inr (.inr (.inl ⟨by omega, by omega, ‹_›, rfl⟩))
      · exact .inr (.inr (.inr ⟨by omega, by omega, by omega, rfl⟩))

/-- With its bytes in S and room for its pixels, an opcode commits. -/
theorem opcodeUnit_commits {len : Nat} (px : Pixel) {n : Nat} {s : State} (hlen : 1 ≤ len)
    (hpos : s.pos.toNat + len ≤ s.inLen.toNat) (hidx : s.outIndex.toNat + n ≤ s.total.toNat) :
    opcodeUnit len px n s = commit px n len s := by
  rcases opcodeUnit_cases len px n s with h | h | h | h <;> first | exact h.2.2.2 | omega

/-! ## The header and the footer -/

/-- The pixel count is the exact product (R106). -/
theorem totalOf_toNat (w h : Word) : (totalOf w h).toNat = w.toNat * h.toNat := by
  have hw := w.isLt; have hh := h.isLt
  have : w.toNat * h.toNat < 2 ^ 64 := by nlinarith
  simp only [totalOf, BitVec.toNat_mul, BitVec.toNat_setWidth]
  rw [Nat.mod_eq_of_lt (show w.toNat < 2 ^ 64 by omega), Nat.mod_eq_of_lt (show h.toNat < 2 ^ 64 by omega),
    Nat.mod_eq_of_lt this]

/-- All the allocation check can answer (R107). -/
theorem allocationCheck_cases (s : State) :
    (s.outCap.toNat < s.total.toNat ∧ allocationCheck s = some 1) ∨
    (s.total.toNat ≤ s.outCap.toNat ∧ 2 ^ 32 < s.outBase.toNat + 4 * s.total.toNat ∧
      allocationCheck s = some 2) ∨
    (s.total.toNat ≤ s.outCap.toNat ∧ s.outBase.toNat + 4 * s.total.toNat ≤ 2 ^ 32 ∧
      allocationCheck s = none) := by
  unfold allocationCheck
  split
  · exact .inl ⟨‹_›, rfl⟩
  · split
    · exact .inr (.inl ⟨by omega, ‹_›, rfl⟩)
    · exact .inr (.inr ⟨by omega, by omega, rfl⟩)

/-- All the header unit can do (R102), with the field-loaded state `l`. -/
theorem execHeader_cases (m w h : Word) (c k : Byte) (s : State) :
    let l := loadHeader w h c k s
    (s.inLen.toNat < 14 ∧ execHeader m w h c k s = .next (raiseErr .truncatedInput 1 s)) ∨
    (14 ≤ s.inLen.toNat ∧ m ≠ Config.magic ∧
      execHeader m w h c k s = .next (raiseErr .formatMismatch 1 s)) ∨
    (14 ≤ s.inLen.toNat ∧ m = Config.magic ∧ l.outCap.toNat < l.total.toNat ∧
      execHeader m w h c k s = .next (raiseErr .allocationFailure 1 l)) ∨
    (14 ≤ s.inLen.toNat ∧ m = Config.magic ∧ l.total.toNat ≤ l.outCap.toNat ∧
      2 ^ 32 < l.outBase.toNat + 4 * l.total.toNat ∧
      execHeader m w h c k s = .next (raiseErr .allocationFailure 2 l)) ∨
    (14 ≤ s.inLen.toNat ∧ m = Config.magic ∧ l.total.toNat ≤ l.outCap.toNat ∧
      l.outBase.toNat + 4 * l.total.toNat ≤ 2 ^ 32 ∧
      execHeader m w h c k s = .next (initDecode l)) := by
  intro l
  unfold execHeader
  by_cases h14 : s.inLen.toNat < 14
  · exact .inl ⟨h14, by simp [Config.hdrLen, h14]⟩
  · rw [if_neg (by simpa [Config.hdrLen] using h14)]
    by_cases hm : m = Config.magic
    · rw [if_neg (by simp [hm])]
      rcases allocationCheck_cases l with ⟨h1, e⟩ | ⟨h1, h2, e⟩ | ⟨h1, h2, e⟩
      · exact .inr (.inr (.inl ⟨by omega, hm, h1, by simp only [l] at e; simp only [e]; rfl⟩))
      · exact .inr (.inr (.inr (.inl ⟨by omega, hm, h1, h2, by simp only [l] at e; simp only [e]; rfl⟩)))
      · exact .inr (.inr (.inr (.inr ⟨by omega, hm, h1, h2, by simp only [l] at e; simp only [e]; rfl⟩)))
    · exact .inr (.inl ⟨by omega, hm, by simp [hm]⟩)

/-- No byte of the end marker differs from the end marker, and only there (R73). -/
theorem firstMismatch_none (m : BitVec 64) : firstMismatch m = none ↔ m = Config.endMarker := by
  constructor
  · intro h
    simp only [firstMismatch, List.find?_eq_none, List.mem_range] at h
    have e : ∀ j < 8, markerByte m j = markerByte Config.endMarker j := fun j hj => by
      simpa using h j hj
    rw [← be64_markerByte m, e 0 (by omega), e 1 (by omega), e 2 (by omega), e 3 (by omega),
      e 4 (by omega), e 5 (by omega), e 6 (by omega), e 7 (by omega), be64_markerByte]
  · rintro rfl
    simp [firstMismatch]

/-- The first mismatch: every byte before it agrees with the end marker, and it does not (R136). -/
theorem firstMismatch_some {m : BitVec 64} {j : Nat} (h : firstMismatch m = some j) :
    j < 8 ∧ markerByte m j ≠ markerByte Config.endMarker j ∧
      ∀ i < j, markerByte m i = markerByte Config.endMarker i := by
  have hj : j < 8 := by simpa [Config.ftrLen] using List.mem_of_find?_eq_some h
  have hne : markerByte m j ≠ markerByte Config.endMarker j := by
    simpa using List.find?_some h
  refine ⟨hj, hne, fun i hi => ?_⟩
  have := (List.find?_range_eq_some).1 h
  simpa using this.2.2 i hi

/-- All the footer unit can do (R136). -/
theorem execFooter_cases (m : BitVec 64) (s : State) :
    (s.inLen.toNat < s.pos.toNat + 8 ∧ execFooter m s = .next (raiseErr .truncatedInput 5 s)) ∨
    (∃ j, s.pos.toNat + 8 ≤ s.inLen.toNat ∧ firstMismatch m = some j ∧
      execFooter m s = .next (raiseErr .invalidEndMarker (BitVec.ofNat 4 (j + 1)) s)) ∨
    (s.pos.toNat + 8 ≤ s.inLen.toNat ∧ m = Config.endMarker ∧
      execFooter m s = .next (complete { s with pos := s.pos + 8 })) := by
  unfold execFooter
  by_cases h : s.inLen.toNat < s.pos.toNat + 8
  · exact .inl ⟨h, by simp [Config.ftrLen, h]⟩
  · rw [if_neg (by simpa [Config.ftrLen] using h)]
    cases e : firstMismatch m with
    | none => exact .inr (.inr ⟨by omega, (firstMismatch_none m).1 e, rfl⟩)
    | some j => exact .inr (.inl ⟨j, by omega, rfl, rfl⟩)

end Sys2Proof.Machine
end

