-- ==== Sys2Proof/Laws/Step.lean ====
section
/-! SUPPORT. What a step can do: the reads of a unit, the unit that is due, BLK's unit, and the memories HOST and reset
leave. -/

namespace Sys2Proof.Machine

/-! ## Reads -/

/-- Bytes that are all there are read (R48). -/
theorem readBytes_of_read {m : Memory} (bs : List Byte) :
    ∀ off, (∀ k (h : k < bs.length), m.read (off + k) = some bs[k]) →
      readBytes m off bs.length = some bs := by
  induction bs with
  | nil => intro off _; rfl
  | cons b bs ih =>
    intro off h
    have h0 : m.read off = some b := h 0 (by simp)
    have ht : readBytes m (off + 1) bs.length = some bs := ih (off + 1) fun k hk => by
      have := h (k + 1) (by simpa using hk)
      simpa [Nat.add_assoc, Nat.add_comm 1 k] using this
    simp only [List.length_cons, readBytes, h0, ht]

/-- A read with a byte that is not there is not answered (R51). -/
theorem readBytes_eq_none {m : Memory} {n : Nat} :
    ∀ {off k : Nat}, k < n → m.read (off + k) = none → readBytes m off n = none := by
  induction n with
  | zero => intro off k hk; omega
  | succ n ih =>
    intro off k hk h
    rcases k with _ | k
    · simp only [readBytes, show m.read off = none from h]
    · have := ih (off := off + 1) (k := k) (by omega) (by rw [← h]; congr 1; omega)
      simp only [readBytes, this]
      cases m.read off <;> rfl

/-- A read that is not answered has a byte that is not there. -/
theorem readBytes_ne_none {m : Memory} {n : Nat} :
    ∀ {off : Nat}, (∀ k < n, m.read (off + k) ≠ none) → readBytes m off n ≠ none := by
  induction n with
  | zero => intro off _; simp [readBytes]
  | succ n ih =>
    intro off h
    obtain ⟨b, hb⟩ := Option.ne_none_iff_exists'.1 (h 0 (by omega))
    obtain ⟨bs, hbs⟩ := Option.ne_none_iff_exists'.1 (ih (off := off + 1) fun k hk => by
      have := h (k + 1) (by omega)
      rwa [show off + (k + 1) = off + 1 + k by omega] at this)
    simp only [readBytes, show m.read off = some b from hb, hbs]
    simp

/-- A read depends on its own bytes only. -/
theorem readBytes_congr {m m' : Memory} {n : Nat} :
    ∀ {off : Nat}, (∀ k, off ≤ k → k < off + n → m.read k = m'.read k) →
      readBytes m off n = readBytes m' off n := by
  induction n with
  | zero => intro off _; rfl
  | succ n ih =>
    intro off h
    simp only [readBytes, h off (Nat.le_refl _) (by omega),
      ih (off := off + 1) fun k h1 h2 => h k (by omega) (by omega)]

/-! ## What is due -/

/-- A decoded opcode is run as the opcode unit, with a length and a count in their ranges (R114). -/
theorem decodeOpcode_unit {bs rest : List Byte} {i : Instr} (h : decodeOpcode bs = .ok (i, rest))
    (s : State) :
    ∃ len px n, 1 ≤ len ∧ len ≤ 5 ∧ 1 ≤ n ∧ n ≤ 64 ∧ exec i s = .next (opcodeUnit len px n s) := by
  rcases bs with _ | ⟨t, bs⟩
  · cases h
  · simp only [decodeOpcode, decodeOperands] at h
    split at h <;> cases h
    · exact ⟨4, _, 1, by omega, by omega, by omega, by omega, rfl⟩
    · exact ⟨5, _, 1, by omega, by omega, by omega, by omega, rfl⟩
    · exact ⟨1, _, 1, by omega, by omega, by omega, by omega, rfl⟩
    · exact ⟨1, _, 1, by omega, by omega, by omega, by omega, rfl⟩
    · exact ⟨2, _, 1, by omega, by omega, by omega, by omega, rfl⟩
    · refine ⟨1, _, _, by omega, by omega, ?_, ?_, rfl⟩ <;> simp only [runLength] <;> omega

/-- Enough bytes for its tag are an opcode (R84). -/
theorem decodeOpcode_isOk {t : Byte} {bs : List Byte} (h : bs.length + 1 = (dispatch t).length) :
    ∃ i, decodeOpcode (t :: bs) = .ok (i, []) := by
  simp only [decodeOpcode, decodeOperands]
  cases e : dispatch t <;> simp only [e, Opcode.length] at h
  · match bs, h with | [_, _, _], _ => exact ⟨_, rfl⟩
  · match bs, h with | [_, _, _, _], _ => exact ⟨_, rfl⟩
  · match bs, h with | [], _ => exact ⟨_, rfl⟩
  · match bs, h with | [], _ => exact ⟨_, rfl⟩
  · match bs, h with | [_], _ => exact ⟨_, rfl⟩
  · match bs, h with | [], _ => exact ⟨_, rfl⟩

/-- All an opcode fetch can give (R111, R113). -/
theorem dueOpcode_cases (s : State) :
    dueOpcode s = .waiting ∨ dueOpcode s = .short 2 ∨ dueOpcode s = .short 3 ∨
    (∃ i, dueOpcode s = .instr i ∧
      ∃ len px n, 1 ≤ len ∧ len ≤ 5 ∧ 1 ≤ n ∧ n ≤ 64 ∧ exec i s = .next (opcodeUnit len px n s)) := by
  unfold dueOpcode fetchUnit
  split
  · exact .inr (.inl rfl)
  · split
    · exact .inl rfl
    · split
      · exact .inr (.inr (.inl rfl))
      · split
        · exact .inl rfl
        · split
          · rename_i i _ h
            exact .inr (.inr (.inr ⟨i, rfl, decodeOpcode_unit h s⟩))
          · exact .inr (.inr (.inl rfl))

/-- All that BLK's unit can do (R8), with the state it leaves. -/
theorem blkUnit_cases (s : State) :
    (blkUnit s = .next s) ∨
    (s.phase = .sniff ∧ ∃ m, blkUnit s = .next (sniffUnit m s)) ∨
    (s.phase ≠ .idle ∧ s.phase ≠ .sniff ∧
      ∃ d : BitVec 4, 1 ≤ d.toNat ∧ d.toNat ≤ 5 ∧ blkUnit s = .next (raiseErr .truncatedInput d s)) ∨
    (s.phase = .header ∧ ∃ m w h c k, blkUnit s = execHeader m w h c k s) ∨
    (s.phase = .ops ∧ ∃ len px n, 1 ≤ len ∧ len ≤ 5 ∧ 1 ≤ n ∧ n ≤ 64 ∧
      blkUnit s = .next (opcodeUnit len px n s)) ∨
    (s.phase = .footer ∧ ∃ m, blkUnit s = execFooter m s) := by
  unfold blkUnit due
  cases hp : s.phase with
  | idle => exact .inl rfl
  | sniff =>
    simp only [dueSniff]
    split_ifs
    · exact .inr (.inl ⟨by trivial, false, rfl⟩)
    · cases readBytes s.stream 0 4 with
      | none => exact .inl rfl
      | some bs => exact .inr (.inl ⟨by trivial, _, rfl⟩)
  | header =>
    simp only
    split_ifs
    · exact .inr (.inr (.inl ⟨by simp, by simp, 1, by decide, by decide, rfl⟩))
    · simp only [fetchUnit]
      cases e : readBytes s.stream 0 Config.hdrLen with
      | none => exact .inl rfl
      | some bs =>
        obtain ⟨m, w, h, c, k, hd⟩ := decodeHeader_isOk (readBytes_length e)
        simp only [decode, hd]
        exact .inr (.inr (.inr (.inl ⟨by trivial, m, w, h, c, k, rfl⟩)))
  | ops =>
    simp only
    rcases dueOpcode_cases s with e | e | e | ⟨i, e, len, px, n, h⟩ <;> rw [e]
    · exact .inl rfl
    · exact .inr (.inr (.inl ⟨by simp, by simp, 2, by decide, by decide, rfl⟩))
    · exact .inr (.inr (.inl ⟨by simp, by simp, 3, by decide, by decide, rfl⟩))
    · exact .inr (.inr (.inr (.inr (.inl ⟨by trivial, len, px, n, h⟩))))
  | footer =>
    simp only
    split_ifs
    · exact .inr (.inr (.inl ⟨by simp, by simp, 5, by decide, by decide, rfl⟩))
    · simp only [fetchUnit]
      cases e : readBytes s.stream s.pos.toNat Config.ftrLen with
      | none => exact .inl rfl
      | some bs =>
        obtain ⟨m, hd⟩ := decodeFooter_isOk (readBytes_length e)
        simp only [decode, hd]
        exact .inr (.inr (.inr (.inr (.inr ⟨by trivial, m, rfl⟩))))

/-- A unit with all its bytes is the instruction they decode to. -/
theorem blkUnit_instr {s : State} {i : Instr} (h : due s = .instr i) : blkUnit s = exec i s := by
  simp only [blkUnit, h]

/-- A unit whose read is not answered leaves the state as it is (R51). -/
theorem blkUnit_waiting {s : State} (h : due s = .waiting) : blkUnit s = .next s := by
  simp only [blkUnit, h]

/-- A unit whose bytes do not all lie in S raises. -/
theorem blkUnit_short {s : State} {d : BitVec 4} (h : due s = .short d) :
    blkUnit s = .next (raiseErr .truncatedInput d s) := by
  simp only [blkUnit, h]

/-- A fetch that is answered and decodes. -/
theorem fetchUnit_instr {u : StreamUnit} {d : BitVec 4} {off n : Nat} {s : State} {bs rest : List Byte}
    {i : Instr} (h : readBytes s.stream off n = some bs) (hd : decode (.unit u bs) = .ok (i, rest)) :
    fetchUnit u d off n s = .instr i := by
  simp only [fetchUnit, h, hd]

/-- A fetch with a byte that is not answered. -/
theorem fetchUnit_waiting {u : StreamUnit} {d : BitVec 4} {off n k : Nat} {s : State} (hk : k < n)
    (h : s.stream.read (off + k) = none) : fetchUnit u d off n s = .waiting := by
  simp only [fetchUnit, readBytes_eq_none hk h]

/-- BLK's unit while PHASE is IDLE (R162). -/
theorem blkUnit_idle {s : State} (h : s.phase = .idle) : blkUnit s = .next s := by
  simp only [blkUnit, due, h]

/-! ## Memories -/

theorem wf_placeBytes (bs : List Byte) :
    ∀ {m : Memory} {off : Nat}, m.wf → off + bs.length ≤ 2 ^ 32 → (placeBytes m off bs).wf := by
  induction bs with
  | nil => intro m off h _; exact h
  | cons b bs ih =>
    intro m off h hb
    simp only [List.length_cons] at hb
    exact ih (Memory.wf_write h (by omega) b) (by omega)

theorem wf_mixWords (base : Word) (draws : Nat) (before after : Memory) {m : Memory} (h : m.wf) :
    ∀ n, (mixWords base draws before after n m).wf
  | 0 => h
  | n + 1 => Memory.wf_copyWord (wf_mixWords base draws before after h n) _ _

/-! ## Whose step it is -/

/-- With no turn of HOST the step is BLK's. -/
theorem step_of_inbox_nil {s : State} (h : s.inbox = []) : step s = blkTurn s := by
  simp only [step, h]

/-- HOST's next turn is the step. -/
theorem step_of_inbox_cons {s : State} {t : Turn} {rest : List Turn} (h : s.inbox = t :: rest) :
    step s = hostTurn t { s with inbox := rest } := by
  simp only [step, h]

/-- BLK's turn while `rst` is released. -/
theorem blkTurn_of_released {s : State} (h : s.rst = false) : blkTurn s = blkUnit s := by
  simp [blkTurn, h]

end Sys2Proof.Machine
end

