-- ==== Sys2Proof/Laws/HostPort.lean ====
section
/-! SUPPORT. What HOST's turns can do: the CSR window, the commands' starts, and the sink after an abandoned command. -/

namespace Sys2Proof.Machine

/-! ## The CSR window -/

theorem csrOffset_inside {s : State} {off : Nat} (h : off < 64) :
    csrOffset s (s.csrBase + off) = some off := by
  simp [csrOffset, Config.csrWindow, h]

theorem csrOffset_outside {s : State} {addr : Nat} (h : addr < s.csrBase ∨ s.csrBase + 64 ≤ addr) :
    csrOffset s addr = none := by
  unfold csrOffset
  exact if_neg (by simp only [Config.csrWindow]; omega)

/-- The accesses the contract allows (R26, R164). -/
theorem csrGuard_none_iff {w : AccessWidth} {off : Nat} {s : State} :
    csrGuard w off s = none ↔ s.rst = false ∧ w = .word ∧ off % 4 = 0 := by
  unfold csrGuard
  split_ifs <;> simp_all

/-- An allowed write in the window. -/
theorem hostWrite_inside {s : State} {off : Nat} (v : Word) (hr : s.rst = false) (h : off < 64)
    (h4 : off % 4 = 0) : hostWrite .word (s.csrBase + off) v s = csrWrite off v s := by
  simp only [hostWrite, csrOffset_inside h, csrGuard_none_iff.2 ⟨hr, rfl, h4⟩]

/-- An allowed read in the window. -/
theorem hostRead_inside {s : State} {off : Nat} (hr : s.rst = false) (h : off < 64)
    (h4 : off % 4 = 0) : hostRead .word (s.csrBase + off) s = .next (csrRead off s) := by
  simp only [hostRead, csrOffset_inside h, csrGuard_none_iff.2 ⟨hr, rfl, h4⟩]

/-- What a write that is a command can be (R88, R89, R90, R93). -/
theorem decodeWrite_mem {off : Nat} {v : Word} {i : Instr} (h : decodeWrite off v = .ok i) :
    i ∈ [Instr.cmdSniff (v.getLsbD 2), .cmdDecode (v.getLsbD 2), .cmdNoneBoth (v.getLsbD 2), .ackDone] := by
  unfold decodeWrite at h
  split_ifs at h <;> cases h <;> simp

/-- All a write in the window can do: one of the four commands, IE alone, a configuration register
while BUSY = 0, or nothing. -/
theorem csrWrite_cases (off : Nat) (v : Word) (s : State) :
    (∃ i ∈ [Instr.cmdSniff (v.getLsbD 2), .cmdDecode (v.getLsbD 2), .cmdNoneBoth (v.getLsbD 2), .ackDone],
      csrWrite off v s = exec i s) ∨
    csrWrite off v s = .next (setIe (v.getLsbD 2) s) ∨
    (s.phase = .idle ∧ ∃ l b c,
      csrWrite off v s = .next { s with inLen := l, outBaseHi := b, outCap := c }) ∨
    csrWrite off v s = .next s := by
  unfold csrWrite
  simp only [decode]
  cases e : decodeWrite off v with
  | ok i => exact .inl ⟨i, decodeWrite_mem e, rfl⟩
  | error r =>
    simp only [Except.map, csrWritePlain]
    by_cases hp : s.phase = .idle
    · have e : ∀ t, whileIdle s t = t := fun t => by simp [whileIdle, State.busy, hp]
      simp only [e]
      split
      · exact .inr (.inl rfl)
      · exact .inr (.inr (.inl ⟨hp, _, _, _, rfl⟩))
      · exact .inr (.inr (.inl ⟨hp, _, _, _, rfl⟩))
      · exact .inr (.inr (.inl ⟨hp, _, _, _, rfl⟩))
      · exact .inr (.inr (.inr rfl))
    · have e : ∀ t, whileIdle s t = s := fun t => by simp [whileIdle, State.busy, hp]
      simp only [e]
      split
      · exact .inr (.inl rfl)
      all_goals exact .inr (.inr (.inr rfl))

/-- A command's start while a command runs is dropped (R91). -/
theorem startSniff_busy {s : State} (h : s.phase ≠ .idle) : startSniff s = s := by
  simp [startSniff, State.busy, h]

theorem startDecode_busy {s : State} (h : s.phase ≠ .idle) : startDecode s = s := by
  simp [startDecode, State.busy, h]

/-- CMD_SNIFF's start while idle (R88). -/
theorem startSniff_idle {s : State} (h : s.phase = .idle) :
    startSniff s = { clearResult s with phase := .sniff } := by
  simp [startSniff, State.busy, h]

/-! ## The sink -/

/-- The sink bytes HOST may not touch: while BUSY, those of the OUT_CAP words (R145) and of the TOTAL
words (R65). -/
theorem sinkOwned_iff {s : State} {a : Word} :
    sinkOwned s a = true ↔ s.phase ≠ .idle ∧ s.outBase.toNat ≤ a.toNat ∧
      (a.toNat < s.outBase.toNat + 4 * s.outCap.toNat ∨ a.toNat < s.outBase.toNat + 4 * s.total.toNat) := by
  have h : a.toNat < s.outBase.toNat + 4 * ownedWords s ↔
      a.toNat < s.outBase.toNat + 4 * s.outCap.toNat ∨ a.toNat < s.outBase.toNat + 4 * s.total.toNat := by
    unfold ownedWords
    omega
  simp [sinkOwned, State.busy, h]

/-! ## Reset -/

/-- A command that has written nothing leaves nothing behind (R54, R107). -/
theorem abandon_of_idle_sniff_header {s : State} (h : s.phase ≠ .ops) (h' : s.phase ≠ .footer) :
    abandon s = s := by
  unfold abandon
  split <;> simp_all

/-- A word made what it is in another memory. -/
theorem Memory.read_copyWord {m : Memory} (h : m.wf) (src : Memory) {addr : Word}
    (ha : addr.toNat % 4 = 0) (a : Nat) :
    (m.copyWord src addr).read a =
      if addr.toNat ≤ a ∧ a < addr.toNat + 4 then src.read a else m.read a := by
  have h1 : (addr + 1).toNat = addr.toNat + 1 := aligned_add ha (by decide)
  have h2 : (addr + 2).toNat = addr.toNat + 2 := aligned_add ha (by decide)
  have h3 : (addr + 3).toNat = addr.toNat + 3 := aligned_add ha (by decide)
  have w0 := Memory.wf_copyByte h src addr.isLt
  have w1 := Memory.wf_copyByte w0 src (addr + 1).isLt
  have w2 := Memory.wf_copyByte w1 src (addr + 2).isLt
  unfold Memory.copyWord
  rw [Memory.read_copyByte w2, Memory.read_copyByte w1, Memory.read_copyByte w0,
    Memory.read_copyByte h, h1, h2, h3]
  split_ifs <;> first | rfl | omega

/-- The mixed words, each from one of the two memories, and every other byte as before (R164). -/
theorem mixWords_read (s : State) (draws : Nat) (before after : Memory) {m : Memory} (h : m.wf)
    (n : Nat) (fit : s.outBase.toNat + 4 * n ≤ 2 ^ 32) (a : Nat) :
    (∀ i < n, s.outBase.toNat + 4 * i ≤ a → a < s.outBase.toNat + 4 * i + 4 →
      (mixWords s.outBase draws before after n m).read a =
        (if Config.freeBit (draws + i) then before else after).read a) ∧
    (a < s.outBase.toNat ∨ s.outBase.toNat + 4 * n ≤ a →
      (mixWords s.outBase draws before after n m).read a = m.read a) := by
  induction n with
  | zero => exact ⟨fun i hi => absurd hi (Nat.not_lt_zero i), fun _ => rfl⟩
  | succ n ih =>
    obtain ⟨inside, outside⟩ := ih (by omega)
    have ha : (sinkAddr s.outBase n).toNat = s.outBase.toNat + 4 * n := by
      rw [sinkAddr_toNat]; omega
    have hr := Memory.read_copyWord (wf_mixWords s.outBase draws before after h n)
      (if Config.freeBit (draws + n) then before else after) (s.sinkAddr_mod n) a
    rw [ha] at hr
    refine ⟨fun i hi h1 h2 => ?_, fun ho => ?_⟩
    · simp only [mixWords]
      rw [hr]
      by_cases hc : s.outBase.toNat + 4 * n ≤ a ∧ a < s.outBase.toNat + 4 * n + 4
      · rw [if_pos hc, show i = n by omega]
      · rw [if_neg hc]
        exact inside i (by omega) h1 h2
    · simp only [mixWords]
      rw [hr, if_neg (by omega)]
      exact outside (by omega)

end Sys2Proof.Machine
end

