-- ==== Sys2Proof/Laws/PerInstr.lean ====
section
/-! SUPPORT. What holds of every instruction as syntax: the length of its encoding (R69, R70, R73, R74; a HOST command
has no stream bytes). -/

namespace Sys2Proof.Laws.EncodedLength

/-- How many stream bytes each instruction takes (R70, R73, R74). -/
def bytesOf : Instr → Nat
  | .rgb _ _ _ => 4
  | .rgba _ _ _ _ => 5
  | .index _ => 1
  | .diff _ _ _ => 1
  | .luma _ _ _ => 2
  | .run _ => 1
  | .header _ _ _ _ _ => 14
  | .footer _ => 8
  | .cmdSniff _ => 0
  | .cmdDecode _ => 0
  | .cmdNoneBoth _ => 0
  | .ackDone => 0

/-- The encoder writes exactly that many. -/
def Statement (i : Instr) : Prop := (encode i).bytes.length = bytesOf i

theorem rgb (r g b : Byte) : Statement (.rgb r g b) := rfl
theorem rgba (r g b a : Byte) : Statement (.rgba r g b a) := rfl
theorem index (k : BitVec 6) : Statement (.index k) := rfl
theorem diff (rr gg bb : BitVec 2) : Statement (.diff rr gg bb) := rfl
theorem luma (gg : BitVec 6) (rr bb : BitVec 4) : Statement (.luma gg rr bb) := rfl
theorem run (n : BitVec 6) : Statement (.run n) := rfl
theorem header (magic width height : Word) (channels colorspace : Byte) :
    Statement (.header magic width height channels colorspace) := rfl
theorem footer (marker : BitVec 64) : Statement (.footer marker) := rfl
theorem cmdSniff (ie : Bool) : Statement (.cmdSniff ie) := rfl
theorem cmdDecode (ie : Bool) : Statement (.cmdDecode ie) := rfl
theorem cmdNoneBoth (ie : Bool) : Statement (.cmdNoneBoth ie) := rfl
theorem ackDone : Statement .ackDone := rfl

end Sys2Proof.Laws.EncodedLength
end

