-- ==== Sys2Proof/Tests/Slice0.lean ====
section
/-! SUPPORT. The model's own tests: the well-formedness smoke, the decoding of words written out from the encodings, one
step of each instruction against 95_test_vectors.md, and a witness for the hypotheses of each statement. -/

namespace Sys2Proof.Tests

open Sys2Proof Sys2Proof.Machine Sys2Proof.Claims

/-! ## Helpers -/

/-- A field of what a step answers, if it answers a next state. -/
def after {α : Type} (o : Host.Outcome State Fault Refusal) (f : State → α) : Option α :=
  match o with
  | .next t => some (f t)
  | .fault _ => none
  | .refused _ => none

/-- A state in which an opcode is due: an image of `total` by 1 pixels, the base and the room for it. -/
def opsAt (inLen pos index total : Nat) (last : Pixel) : State :=
  { State.reset with
    phase := .ops
    inLen := BitVec.ofNat 32 inLen
    pos := BitVec.ofNat 32 pos
    outIndex := BitVec.ofNat 32 index
    width := BitVec.ofNat 32 total
    height := 1
    total := BitVec.ofNat 64 total
    outCap := BitVec.ofNat 32 total
    outBaseHi := 0x400
    lastPixel := last
    cache := cacheStore State.reset.cache last }

/-- A state in which the footer is due. -/
def footerAt (inLen pos : Nat) : State := { opsAt inLen pos 1 1 Pixel.seed with phase := .footer }

/-- A state in which the header unit is due. -/
def headerAt (inLen outCap : Nat) (outBaseHi : BitVec 30) : State :=
  { State.reset with
    phase := .header
    inLen := BitVec.ofNat 32 inLen
    outCap := BitVec.ofNat 32 outCap
    outBaseHi := outBaseHi }

/-- The header of a 1 by 1 image. -/
def tinyHeader : List Byte := [0x71, 0x6F, 0x69, 0x66, 0, 0, 0, 1, 0, 0, 0, 1, 4, 0]

/-- HOST is about to do `t`. -/
def hostDoes (t : Turn) (s : State) : State := { s with inbox := [t] }

/-! ## Well-formedness refuses ill-formed terms -/

theorem test_wellFormed_run_62 : (Instr.run 62).wellFormed = false := by decide
theorem test_wellFormed_run_63 : (Instr.run 63).wellFormed = false := by decide
theorem test_wellFormed_header_magic : (Instr.header 0x716F6946 1 1 4 0).wellFormed = false := by decide
theorem test_wellFormed_footer_marker : (Instr.footer 2).wellFormed = false := by decide
theorem test_wellFormed_accepts : (Instr.run 61).wellFormed = true ∧
    (Instr.header 0x716F6966 1 1 4 0).wellFormed = true ∧ (Instr.footer 1).wellFormed = true := by decide

/-! ## Decoding, from the encodings of 30_encoding.md and 40_host_commands.md -/

/-- R75: 11111110, r, g, b. -/
theorem test_decode_rgb : decode (.unit .opcode [0b11111110, 0x05, 0x06, 0x07, 0xAA]) =
    .ok (.rgb 5 6 7, [0xAA]) := rfl

/-- R76: 11111111, r, g, b, a. -/
theorem test_decode_rgba : decode (.unit .opcode [0b11111111, 0x0A, 0x14, 0x1E, 0xFF]) =
    .ok (.rgba 10 20 30 255, []) := rfl

/-- R77: 00 kkkkkk, k = 100110. -/
theorem test_decode_index : decode (.unit .opcode [0b00100110]) = .ok (.index 38, []) := rfl

/-- R78: 01 RR GG BB = 01 00 10 11. -/
theorem test_decode_diff : decode (.unit .opcode [0b01001011]) = .ok (.diff 0 2 3, []) := rfl

/-- R79: 10 GGGGGG = 10 100101, RRRR BBBB = 0011 1100. -/
theorem test_decode_luma : decode (.unit .opcode [0b10100101, 0b00111100]) = .ok (.luma 37 3 12, []) := rfl

/-- R80: 11 nnnnnn = 11 000101. -/
theorem test_decode_run : decode (.unit .opcode [0b11000101]) = .ok (.run 5, []) := rfl

/-- R71: h[4..7] = 12 34 56 78 gives width 0x12345678. -/
theorem test_decode_header :
    decode (.unit .header [0x71, 0x6F, 0x69, 0x66, 0x12, 0x34, 0x56, 0x78, 0, 0, 0, 9, 3, 1]) =
      .ok (.header 0x716F6966 0x12345678 9 3 1, []) := rfl

/-- R73. -/
theorem test_decode_footer : decode (.unit .footer [0, 0, 0, 0, 0, 0, 0, 1]) = .ok (.footer 1, []) := rfl

/-- R88: value & 3 = 1; bit 2 is IE. -/
theorem test_decode_cmdSniff : decode (.csrWrite 0x00 0b101) = .ok (.cmdSniff true, []) := rfl

/-- R89: value & 3 = 2. -/
theorem test_decode_cmdDecode : decode (.csrWrite 0x00 0b110) = .ok (.cmdDecode true, []) := rfl

/-- R90: value & 3 = 3. -/
theorem test_decode_cmdNoneBoth : decode (.csrWrite 0x00 0b011) = .ok (.cmdNoneBoth false, []) := rfl

/-- R93: bit 1 of a STATUS write. -/
theorem test_decode_ackDone : decode (.csrWrite 0x04 0xFFFFFFFF) = .ok (.ackDone, []) := rfl

/-- The words of the opcode table, as the host numbers them, one a row that has a word of its own. -/
theorem test_decodeTableWord :
    decodeTableWord 32 0x1E140AFE = some (.rgb 10 20 30) ∧
    decodeTableWord 40 0xFF1E140AFF = some (.rgba 10 20 30 255) ∧
    decodeTableWord 8 0x3F = some (.index 63) ∧ decodeTableWord 8 0x4A = some (.diff 0 2 2) ∧
    decodeTableWord 16 0x3CA5 = some (.luma 37 3 12) ∧ decodeTableWord 8 0xC5 = some (.run 5) ∧
    decodeTableWord 64 0x0100000000000000 = some (.footer 1) ∧
    decodeTableWord 32 1 = some (.cmdSniff false) ∧ decodeTableWord 32 2 = some (.cmdDecode false) ∧
    decodeTableWord 32 3 = some (.cmdNoneBoth false) := by
  decide

/-- The step after `withFetchWord` runs that instruction (log entry 18). -/
theorem test_withFetchWord_runs :
    after (step (State.reset.withFetchWord 40 0xFF1E140AFF)) (·.lastPixel) = some ⟨10, 20, 30, 255⟩ ∧
    after (step (State.reset.withFetchWord 32 2)) (·.phase) = some .header := by
  decide

/-! ## One step of each instruction (95_test_vectors.md) -/

/-- U2. -/
theorem test_rgb_keeps_alpha :
    after (exec (.rgb 9 9 9) (opsAt 18 14 0 1 ⟨1, 2, 3, 0⟩)) (·.lastPixel) = some ⟨9, 9, 9, 0⟩ := by decide

/-- T3. -/
theorem test_rgb_cut_short :
    after (exec (.rgb 1 2 0) (opsAt 17 14 0 1 Pixel.seed)) (·.statusWord) = some 0x00000322 := by decide

/-- U5 and its cache slot 34. -/
theorem test_rgba_zero_alpha :
    after (exec (.rgba 1 2 3 0) (opsAt 19 14 0 1 Pixel.seed)) (fun t => cacheLookup t 34) =
      some ⟨1, 2, 3, 0⟩ := by decide

/-- R131: at decode start INDEX 5 gives (0,0,0,0). -/
theorem test_index_reads_zero :
    after (exec (.index 5) { opsAt 15 14 0 1 Pixel.seed with cache := Vector.replicate 64 Pixel.zero })
      (·.lastPixel) = some ⟨0, 0, 0, 0⟩ := by decide

/-- R131: after RGBA (100,150,200,255) the tag 0x07 gives it again. -/
theorem test_index_reads_slot_7 :
    after (exec (.index 7) (opsAt 15 14 0 1 ⟨100, 150, 200, 255⟩)) (·.lastPixel) =
      some ⟨100, 150, 200, 255⟩ := by decide

/-- E2, U12. -/
theorem test_diff_wraps :
    after (exec (.diff 0 2 2) (opsAt 15 14 0 1 ⟨1, 0, 0, 255⟩)) (·.lastPixel) =
      some ⟨255, 0, 0, 255⟩ := by decide

/-- U9. -/
theorem test_diff_wraps_up :
    after (exec (.diff 3 3 3) (opsAt 15 14 0 1 ⟨255, 255, 255, 7⟩)) (·.lastPixel) =
      some ⟨0, 0, 0, 7⟩ := by decide

/-- U16. -/
theorem test_luma_lowest :
    after (exec (.luma 0 0 0) (opsAt 16 14 0 1 Pixel.seed)) (·.lastPixel) =
      some ⟨216, 224, 216, 255⟩ := by decide

/-- U20. -/
theorem test_luma_fields :
    after (exec (.luma 37 3 12) (opsAt 16 14 0 1 ⟨10, 20, 30, 255⟩)) (·.lastPixel) =
      some ⟨10, 25, 39, 255⟩ := by decide

/-- R133: the second pixel of a run of 2, and PHASE = FOOTER after the last pixel. -/
theorem test_run_of_two :
    after (exec (.run 1) (opsAt 15 14 1 3 ⟨5, 5, 5, 255⟩))
      (fun t => (t.sink.read 0x1008, t.sink.read 0x1003, t.phase)) =
      some (some 5, none, .footer) := by decide

/-- T5. -/
theorem test_run_overrun :
    after (exec (.run 1) (opsAt 15 14 0 1 Pixel.seed)) (fun t => (t.statusWord, t.sink)) =
      some (0x00000422, []) := by decide

/-- H10. -/
theorem test_header_fits_exactly :
    after (exec (.header 0x716F6966 4 1 4 0) (headerAt 14 256 0x3FFFFFFC)) (fun t => (t.phase, t.pos)) =
      some (.ops, 14) := by decide

/-- H9. -/
theorem test_header_passes_the_top :
    after (exec (.header 0x716F6966 8 1 4 0) (headerAt 14 256 0x3FFFFFFC))
      (fun t => (t.statusWord, t.total)) = some (0x00000242, 8) := by decide

/-- R136's example. -/
theorem test_footer_completes :
    after (exec (.footer 1) (footerAt 27 19)) (fun t => (t.statusWord, t.pos)) =
      some (0x00000006, 27) := by decide

/-- R150: a footer whose first and last bytes are both wrong. -/
theorem test_footer_first_mismatch :
    after (exec (.footer 0x0100000000000002) (footerAt 27 19)) (·.statusWord) = some 0x00000132 := by decide

/-- C1. -/
theorem test_cmdSniff : after (exec (.cmdSniff false) State.reset) (·.statusWord) = some 0x00001001 := by
  decide

/-- C12. -/
theorem test_cmdDecode :
    after (exec (.cmdDecode false)
      { State.reset with done := true, matched := true, err := .truncatedInput, detail := 4 })
      (·.statusWord) = some 0x00002009 := by decide

/-- C4. -/
theorem test_cmdNoneBoth :
    after (exec (.cmdNoneBoth true) State.reset) (fun t => (t.ctrlWord, t.statusWord)) = some (4, 0) := by
  decide

/-- C9. -/
theorem test_ackDone :
    after (exec .ackDone { State.reset with done := true, ok := true }) (·.statusWord) =
      some 0x00000004 := by decide

/-- S3. -/
theorem test_sniff_is_case_sensitive :
    after (step { State.reset with
        phase := .sniff, inLen := 27, pos := 7, stream := placeBytes [] 0 [0x71, 0x6F, 0x69, 0x46] })
      (fun t => (t.statusWord, t.pos)) = some (0x00000006, 7) := by decide

/-- C8. -/
theorem test_outBase_low_bits :
    after (step (hostDoes (.csrWrite .word 0x0C 0x00001003) State.reset)) (·.outBase) =
      some 0x00001000 := by decide

/-- R87's example. -/
theorem test_runx : assembleItem (.runx 130) = some [0xFD, 0xFD, 0xC5] := by decide

/-- R86: `RUN 63` is refused. -/
theorem test_run_63_is_refused : assembleItem (.run 63) = none := by decide

/-- R86: `INDEX 64` is refused, not assembled to 0x40, which is DIFF. -/
theorem test_index_64_is_refused : assembleItem (.index 64) = none := by decide

/-- R145: while BUSY the word TOTAL, below OUT_CAP, is BLK's, and the word OUT_CAP is HOST's. -/
theorem test_outCap_words_are_owned :
    let s := { opsAt 15 14 0 1 Pixel.seed with outCap := 3 }
    sinkOwned s 0x1004 = true ∧ sinkOwned s 0x100B = true ∧ sinkOwned s 0x100C = false := by decide

/-- Two lines of R86 with a comment, a hexadecimal number and a negative delta. -/
theorem test_assembleText :
    assembleText ['R', 'G', 'B', ' ', '5', ',', ' ', '0', 'x', 'F', 'f', ',', '7', ' ', ';', 'c', '\n',
      'D', 'I', 'F', 'F', ' ', '-', '2', ',', '0', ',', '0'] = some [0xFE, 5, 255, 7, 0x4A] := by decide

/-! ## The hypotheses of the statements can be met -/

theorem witness_DecodeOfEncode : ∀ n, Instr.run 61 = .run n → n.toNat < 62 := by
  intro n h; cases h; decide

theorem witness_EncodeOfDecode :
    decode (.unit .opcode [0xFD, 0x00]) = .ok (.run 61, [0x00]) ∧
    decode (.unit .header tinyHeader) = .ok (.header 0x716F6966 1 1 4 0, []) ∧
    decode (.unit .footer [0, 0, 0, 0, 0, 0, 0, (2 : Byte)]) = .ok (.footer 2, []) := ⟨rfl, rfl, rfl⟩

theorem witness_TagSelects :
    (0x3F : Byte).toNat < 0x40 ∧ (0x40 ≤ (0x40 : Byte).toNat ∧ (0x7F : Byte).toNat < 0x80) ∧
    (0x80 ≤ (0x80 : Byte).toNat ∧ (0xBF : Byte).toNat < 0xC0) ∧
    (0xC0 ≤ (0xC0 : Byte).toNat ∧ (0xFD : Byte).toNat < 0xFE) := by decide

theorem witness_WhatIsNoInstruction :
    (List.replicate 13 (0 : Byte)).length < 14 ∧ (List.replicate 7 (0 : Byte)).length < 8 ∧
    [(0 : Byte), 0].length + 1 < (dispatch 0xFE).length ∧ [(0 : Byte), 0, 0].length + 1 < (dispatch 0xFF).length ∧
    ([] : List Byte).length + 1 < (dispatch 0x80).length ∧
    (4 : Word).toNat % 4 = 0 ∧ (0xFFFFFFFD : Word).toNat / 2 % 2 = 0 ∧ (8 ≠ 0x00 ∧ 8 ≠ 0x04) := by decide

theorem witness_Rgb :
    (let s := opsAt 18 14 0 1 Pixel.seed
     s.pos.toNat + 4 ≤ s.inLen.toNat ∧ s.outIndex.toNat + 1 ≤ s.total.toNat) ∧
    (let s := opsAt 17 14 0 1 Pixel.seed
     s.pos.toNat < s.inLen.toNat ∧ s.inLen.toNat < s.pos.toNat + 4) := by decide

theorem witness_Rgba :
    (let s := opsAt 19 14 0 1 Pixel.seed
     s.pos.toNat + 5 ≤ s.inLen.toNat ∧ s.outIndex.toNat + 1 ≤ s.total.toNat) ∧
    (let s := opsAt 15 14 0 1 Pixel.seed
     s.pos.toNat < s.inLen.toNat ∧ s.inLen.toNat < s.pos.toNat + 5) := by decide

theorem witness_IndexAndDiff :
    (let s := opsAt 15 14 0 1 Pixel.seed
     s.pos.toNat + 1 ≤ s.inLen.toNat ∧ s.outIndex.toNat + 1 ≤ s.total.toNat) ∧
    (let s := opsAt 14 14 0 1 Pixel.seed
     s.inLen.toNat ≤ s.pos.toNat) := by decide

theorem witness_Luma :
    (let s := opsAt 16 14 0 1 Pixel.seed
     s.pos.toNat + 2 ≤ s.inLen.toNat ∧ s.outIndex.toNat + 1 ≤ s.total.toNat) ∧
    (let s := opsAt 15 14 0 1 Pixel.seed
     s.pos.toNat < s.inLen.toNat ∧ s.inLen.toNat < s.pos.toNat + 2) := by decide

theorem witness_Run :
    (let s := opsAt 15 14 0 62 Pixel.seed
     (61 : BitVec 6).toNat < 62 ∧ s.pos.toNat + 1 ≤ s.inLen.toNat ∧
      s.outIndex.toNat + ((61 : BitVec 6).toNat + 1) ≤ s.total.toNat) ∧
    (let s := opsAt 15 14 0 61 Pixel.seed
     s.pos.toNat + 1 ≤ s.inLen.toNat ∧
      s.total.toNat < s.outIndex.toNat + ((61 : BitVec 6).toNat + 1)) := by decide

theorem witness_OpcodeErrors :
    opcodeLength (.luma 0 0 0) ≠ 0 ∧
    (let s := opsAt 14 14 0 1 Pixel.seed
     s.inLen.toNat ≤ s.pos.toNat) ∧
    (let s := opsAt 15 14 0 1 Pixel.seed
     s.pos.toNat < s.inLen.toNat ∧ s.inLen.toNat < s.pos.toNat + opcodeLength (.luma 0 0 0)) ∧
    (let s := opsAt 15 14 0 1 Pixel.seed
     s.pos.toNat + opcodeLength (.run 1) ≤ s.inLen.toNat ∧
      s.total.toNat < s.outIndex.toNat + copies (.run 1)) := by decide

theorem witness_IndexAfterACommit : ∃ t : State,
    opcodeLength (.run 0) ≠ 0 ∧ exec (.run 0) (opsAt 16 14 0 2 Pixel.seed) = .next t ∧ t.done = false ∧
    t.pos.toNat + 1 ≤ t.inLen.toNat ∧ t.outIndex.toNat + 1 ≤ t.total.toNat :=
  ⟨_, by decide, rfl, by decide, by decide, by decide⟩

theorem witness_OnlyRgbaAndIndex : ∃ t : State,
    exec (.diff 3 3 3) (opsAt 15 14 0 1 Pixel.seed) = .next t ∧ opcodeLength (.diff 3 3 3) ≠ 0 ∧
    (∀ r g b a, Instr.diff 3 3 3 ≠ .rgba r g b a) ∧ ∀ k, Instr.diff 3 3 3 ≠ .index k :=
  ⟨_, rfl, by decide, (fun _ _ _ _ h => by cases h), (fun _ h => by cases h)⟩

/-- A 1 by 4 image that ends at the very top of the sink space, with exactly the room it needs. -/
theorem witness_HeaderLoads :
    (let s := headerAt 14 4 0x3FFFFFFC
     14 ≤ s.inLen.toNat ∧ (4 : Word).toNat * (1 : Word).toNat ≤ s.outCap.toNat ∧
      s.outBase.toNat + 4 * ((4 : Word).toNat * (1 : Word).toNat) ≤ 2 ^ 32) := by decide

theorem witness_HeaderErrors :
    (headerAt 13 4 0).inLen.toNat < 14 ∧
    (14 ≤ (headerAt 14 4 0).inLen.toNat ∧ (0x716F6946 : Word) ≠ 0x716F6966) ∧
    (headerAt 14 4 0).outCap.toNat < (5 : Word).toNat * (1 : Word).toNat ∧
    ((4 : Word).toNat * (1 : Word).toNat ≤ (headerAt 14 4 0x3FFFFFFD).outCap.toNat ∧
      2 ^ 32 < (headerAt 14 4 0x3FFFFFFD).outBase.toNat + 4 * ((4 : Word).toNat * (1 : Word).toNat)) := by
  decide

/-- BLK moves, and answers a next state. -/
theorem witness_BlkStep : ∃ t : State,
    BlkMoves (opsAt 14 14 0 1 Pixel.seed) (opsAt 14 14 0 1 Pixel.seed) ∧
    step (opsAt 14 14 0 1 Pixel.seed) = .next t :=
  ⟨_, ⟨rfl, .inl ⟨rfl, rfl⟩⟩, rfl⟩

theorem witness_Footer :
    (footerAt 26 19).inLen.toNat < (footerAt 26 19).pos.toNat + 8 ∧
    (footerAt 27 19).pos.toNat + 8 ≤ (footerAt 27 19).inLen.toNat ∧
    ([0, 0, 0, 0, 0, 0, 0, (2 : Byte)].take 7 = [0, 0, 0, 0, 0, 0, 0, (1 : Byte)].take 7 ∧
      [0, 0, 0, 0, 0, 0, 0, (2 : Byte)][7]? ≠ [0, 0, 0, 0, 0, 0, 0, (1 : Byte)][7]?) ∧
    ([1, 0, 0, 0, 0, 0, 0, (2 : Byte)].take 0 = [0, 0, 0, 0, 0, 0, 0, (1 : Byte)].take 0 ∧
      [1, 0, 0, 0, 0, 0, 0, (2 : Byte)][0]? ≠ [0, 0, 0, 0, 0, 0, 0, (1 : Byte)][0]?) := by decide

/-- A state in which the sniff is due, with a stream of `n` bytes that begins with the magic. -/
def sniffAt (n : Nat) : State :=
  { State.reset with
    phase := .sniff, inLen := BitVec.ofNat 32 n, stream := placeBytes [] 0 tinyHeader }

theorem placed_tinyHeader (n : Nat) : Placed (sniffAt n) 0 tinyHeader := by
  intro k h
  have h : k < 14 := h
  interval_cases k <;> rfl

theorem witness_Sniff :
    (BlkMoves (sniffAt 3) (sniffAt 3) ∧ (sniffAt 3).phase = .sniff ∧ (sniffAt 3).inLen.toNat < 4) ∧
    (BlkMoves (sniffAt 4) (sniffAt 4) ∧ (sniffAt 4).phase = .sniff ∧ 4 ≤ (sniffAt 4).inLen.toNat ∧
      Placed (sniffAt 4) 0 [0x71, 0x6F, 0x69, 0x66]) := by
  refine ⟨⟨⟨rfl, .inl ⟨rfl, rfl⟩⟩, rfl, by decide⟩, ⟨rfl, .inl ⟨rfl, rfl⟩⟩, rfl, by decide, ?_⟩
  intro k h
  have h : k < 4 := h
  interval_cases k <;> rfl

theorem witness_SniffAgrees :
    ((sniffAt 14).rst = false ∧ (sniffAt 14).inbox = [] ∧ (sniffAt 14).err = .noError ∧
      14 ≤ (sniffAt 14).inLen.toNat ∧ tinyHeader.length = 14 ∧ Placed (sniffAt 14) 0 tinyHeader) ∧
    ((sniffAt 13).rst = false ∧ (sniffAt 13).inbox = [] ∧ (sniffAt 13).err = .noError ∧
      (sniffAt 13).inLen.toNat < 14) :=
  ⟨⟨rfl, rfl, rfl, by decide, rfl, placed_tinyHeader 14⟩, rfl, rfl, rfl, by decide⟩

/-- A command while idle and while one runs, and the values that are commands and acknowledge. -/
theorem witness_Commands :
    State.reset.phase = .idle ∧ (headerAt 14 4 0).phase ≠ .idle ∧ (2 : Word).toNat / 2 % 2 = 1 ∧
    (0xFFFFFFFD : Word).toNat % 4 = 1 ∧ (6 : Word).toNat % 4 = 2 ∧ (7 : Word).toNat % 4 = 3 := by
  decide

/-- HOST's turn `t` is next. -/
theorem hostMoves_hostDoes (t : Turn) {s : State} (h : s.inbox = []) : HostMoves (hostDoes t s) t s :=
  ⟨[], rfl, by cases s; cases h; rfl⟩

/-- A write that is a command, and one with bits 1:0 = 00, while idle and while a command runs. -/
theorem witness_EveryCtrlWrite :
    ∀ v ∈ [(5 : Word), 4], ∀ s ∈ [State.reset, headerAt 14 4 0],
      (hostDoes (.csrWrite .word s.csrBase v) s).rst = false ∧
      HostMoves (hostDoes (.csrWrite .word s.csrBase v) s) (.csrWrite .word s.csrBase v) s ∧
      (4 : Word).toNat % 4 = 0 := by
  intro v _ s hs
  simp only [List.mem_cons, List.not_mem_nil, or_false] at hs
  rcases hs with rfl | rfl <;> exact ⟨rfl, hostMoves_hostDoes _ rfl, rfl⟩

/-- Each configuration register, while idle and while a command runs. -/
theorem witness_ConfigurationWrites :
    ∀ off ∈ [0x08, 0x0C, 0x10], ∀ s ∈ [State.reset, headerAt 14 4 0],
      (hostDoes (.csrWrite .word (s.csrBase + off) 3) s).rst = false ∧
      HostMoves (hostDoes (.csrWrite .word (s.csrBase + off) 3) s) (.csrWrite .word (s.csrBase + off) 3) s := by
  intro off _ s hs
  simp only [List.mem_cons, List.not_mem_nil, or_false] at hs
  rcases hs with rfl | rfl <;> exact ⟨rfl, hostMoves_hostDoes _ rfl⟩

/-- The first and the last register of the range, and a STATUS write with bit 1 = 0. -/
theorem witness_ReadOnly :
    (∀ off ∈ [0x14, 0x3C], 0x14 ≤ off ∧ off < 0x40 ∧ off % 4 = 0 ∧
      (hostDoes (.csrWrite .word off 5) State.reset).rst = false ∧
      HostMoves (hostDoes (.csrWrite .word (State.reset.csrBase + off) 5) State.reset)
        (.csrWrite .word (State.reset.csrBase + off) 5) State.reset) ∧
    ((1 : Word).toNat / 2 % 2 = 0 ∧
      HostMoves (hostDoes (.csrWrite .word (State.reset.csrBase + 0x04) 1) State.reset)
        (.csrWrite .word (State.reset.csrBase + 0x04) 1) State.reset) := by
  refine ⟨fun off h => ?_, by decide, hostMoves_hostDoes _ rfl⟩
  simp only [List.mem_cons, List.not_mem_nil, or_false] at h
  rcases h with rfl | rfl <;> exact ⟨by decide, by decide, by decide, rfl, hostMoves_hostDoes _ rfl⟩

/-- The first address past the window, and the last one before it. -/
theorem witness_OutsideTheWindow :
    (State.reset.csrBase + 64 ≤ 64 ∧
      HostMoves (hostDoes (.csrWrite .word 64 5) State.reset) (.csrWrite .word 64 5) State.reset ∧
      HostMoves (hostDoes (.csrRead .word 64) State.reset) (.csrRead .word 64) State.reset) ∧
    (let s : State := { State.reset with csrBase := 8 }
     7 < s.csrBase ∧ HostMoves (hostDoes (.csrRead .byte 7) s) (.csrRead .byte 7) s) :=
  ⟨⟨by decide, hostMoves_hostDoes _ rfl, hostMoves_hostDoes _ rfl⟩, by decide, hostMoves_hostDoes _ rfl⟩

/-- Every register of the window while idle, and the ends of the two ranges that can be read at any time. -/
theorem witness_CsrRead :
    (∀ off ∈ [0x00, 0x08, 0x0C, 0x10, 0x14, 0x18, 0x1C, 0x20, 0x24, 0x28, 0x2C, 0x30, 0x34, 0x3C],
      off < 0x40 ∧ off % 4 = 0 ∧ State.reset.phase = .idle ∧
      HostMoves (hostDoes (.csrRead .word (State.reset.csrBase + off)) State.reset)
        (.csrRead .word (State.reset.csrBase + off)) State.reset) ∧
    (∀ off ∈ [0x10, 0x34], off < 0x40 ∧ off % 4 = 0 ∧ (off < 0x14 ∨ 0x34 ≤ off) ∧
      (headerAt 14 4 0).rst = false ∧ (headerAt 14 4 0).phase ≠ .idle ∧
      HostMoves (hostDoes (.csrRead .word ((headerAt 14 4 0).csrBase + off)) (headerAt 14 4 0))
        (.csrRead .word ((headerAt 14 4 0).csrBase + off)) (headerAt 14 4 0)) := by
  refine ⟨fun off h => ⟨?_, ?_, rfl, hostMoves_hostDoes _ rfl⟩,
    fun off h => ⟨?_, ?_, ?_, rfl, by decide, hostMoves_hostDoes _ rfl⟩⟩ <;> revert h <;> revert off <;> decide

theorem witness_StatusRead :
    (hostDoes (.csrRead .word 4) State.reset).rst = false ∧
    HostMoves (hostDoes (.csrRead .word (State.reset.csrBase + 0x04)) State.reset)
      (.csrRead .word (State.reset.csrBase + 0x04)) State.reset :=
  ⟨rfl, hostMoves_hostDoes _ rfl⟩

theorem witness_BusyRead :
    ∀ off ∈ [0x14, 0x30], 0x14 ≤ off ∧ off ≤ 0x30 ∧ off % 4 = 0 ∧ (headerAt 14 4 0).rst = false ∧
      (headerAt 14 4 0).phase ≠ .idle ∧
      HostMoves (hostDoes (.csrRead .word ((headerAt 14 4 0).csrBase + off)) (headerAt 14 4 0))
        (.csrRead .word ((headerAt 14 4 0).csrBase + off)) (headerAt 14 4 0) := by
  intro off h
  refine ⟨?_, ?_, ?_, rfl, by decide, hostMoves_hostDoes _ rfl⟩ <;> revert h <;> revert off <;> decide

/-- A byte access, a misaligned access at the window's last byte, and an access while `rst` is asserted. -/
theorem witness_BadAccess :
    (0x00 < 0x40 ∧ AccessWidth.byte ≠ .word ∧ State.reset.rst = false ∧
      HostMoves (hostDoes (.csrRead .byte (State.reset.csrBase + 0x00)) State.reset)
        (.csrRead .byte (State.reset.csrBase + 0x00)) State.reset) ∧
    (0x3F < 0x40 ∧ 0x3F % 4 ≠ 0 ∧
      HostMoves (hostDoes (.csrWrite .word (State.reset.csrBase + 0x3F) 1) State.reset)
        (.csrWrite .word (State.reset.csrBase + 0x3F) 1) State.reset) ∧
    (let s : State := { State.reset with rst := true }
     s.rst = true ∧ HostMoves (hostDoes (.csrRead .word (s.csrBase + 0x3C)) s)
      (.csrRead .word (s.csrBase + 0x3C)) s) :=
  ⟨⟨by decide, by decide, rfl, hostMoves_hostDoes _ rfl⟩, ⟨by decide, by decide, hostMoves_hostDoes _ rfl⟩,
    rfl, hostMoves_hostDoes _ rfl⟩

theorem witness_Interrupt :
    (State.reset.phase = .idle ∧ ∃ t, exec (.cmdSniff true) State.reset = .next t) ∧
    (∃ t, exec .ackDone State.reset = .next t) ∧
    (∃ t, exec (.cmdNoneBoth true) { State.reset with done := true } = .next t) ∧
    (∃ t, BlkMoves (opsAt 14 14 0 1 Pixel.seed) (opsAt 14 14 0 1 Pixel.seed) ∧
      (opsAt 14 14 0 1 Pixel.seed).phase ≠ .idle ∧ (opsAt 14 14 0 1 Pixel.seed).done = false ∧
      step (opsAt 14 14 0 1 Pixel.seed) = .next t) :=
  ⟨⟨rfl, _, rfl⟩, ⟨_, rfl⟩, ⟨_, rfl⟩, _, ⟨rfl, .inl ⟨rfl, rfl⟩⟩, by decide, rfl, rfl⟩

/-- An opcode's bytes stand at POS and reach exactly to the end of S. -/
theorem witness_StepRuns_opcode :
    let s : State := { opsAt 16 14 0 1 Pixel.seed with stream := placeBytes [] 14 [0x80, 0x00] }
    BlkMoves s s ∧ s.phase = .ops ∧ s.pos.toNat + [(0x80 : Byte), 0x00].length ≤ s.inLen.toNat ∧
    Placed s s.pos.toNat [0x80, 0x00] ∧ decode (.unit .opcode [0x80, 0x00]) = .ok (.luma 0 0 0, []) := by
  refine ⟨⟨rfl, .inl ⟨rfl, rfl⟩⟩, rfl, by decide, ?_, rfl⟩
  intro k h
  have h : k < 2 := h
  interval_cases k <;> rfl

theorem witness_StepRuns_header :
    let s : State := { sniffAt 14 with phase := .header }
    BlkMoves s s ∧ s.phase = .header ∧ 14 ≤ s.inLen.toNat ∧ Placed s 0 tinyHeader ∧
    decode (.unit .header tinyHeader) = .ok (.header 0x716F6966 1 1 4 0, []) :=
  ⟨⟨rfl, .inl ⟨rfl, rfl⟩⟩, rfl, by decide, placed_tinyHeader 14, rfl⟩

theorem witness_StepRuns_footer :
    let s : State := { footerAt 27 19 with stream := placeBytes [] 19 [0, 0, 0, 0, 0, 0, 0, 1] }
    BlkMoves s s ∧ s.phase = .footer ∧ s.pos.toNat + 8 ≤ s.inLen.toNat ∧
    Placed s s.pos.toNat [0, 0, 0, 0, 0, 0, 0, 1] ∧
    decode (.unit .footer [0, 0, 0, 0, 0, 0, 0, 1]) = .ok (.footer 1, []) := by
  refine ⟨⟨rfl, .inl ⟨rfl, rfl⟩⟩, rfl, by decide, ?_, rfl⟩
  intro k h
  have h : k < 8 := h
  interval_cases k <;> rfl

theorem witness_StepRuns_write :
    let t : Turn := .csrWrite .word (State.reset.csrBase + 0x04) 2
    (hostDoes t State.reset).rst = false ∧ HostMoves (hostDoes t State.reset) t State.reset ∧
    decode (.csrWrite 0x04 2) = .ok (.ackDone, []) :=
  ⟨rfl, ⟨[], rfl, rfl⟩, rfl⟩

/-- BLK moves from a state with an empty inbox. -/
theorem blkMoves_self {s : State} (hr : s.rst = false) (hi : s.inbox = []) : BlkMoves s s :=
  ⟨hr, .inl ⟨hi, rfl⟩⟩

/-- Each unit's bytes fall one short. -/
theorem witness_UnitCutShort :
    (BlkMoves (headerAt 13 4 0) (headerAt 13 4 0) ∧ (headerAt 13 4 0).phase = .header ∧
      (headerAt 13 4 0).inLen.toNat < 14) ∧
    (let s := opsAt 14 14 0 1 Pixel.seed
     BlkMoves s s ∧ s.phase = .ops ∧ s.inLen.toNat ≤ s.pos.toNat) ∧
    (let s : State := { opsAt 18 14 0 1 Pixel.seed with stream := [(14, 0xFF)] }
     BlkMoves s s ∧ s.phase = .ops ∧ s.pos.toNat < s.inLen.toNat ∧
      s.stream.read s.pos.toNat = some 0xFF ∧ s.inLen.toNat < s.pos.toNat + (dispatch 0xFF).length) ∧
    (BlkMoves (footerAt 26 19) (footerAt 26 19) ∧ (footerAt 26 19).phase = .footer ∧
      (footerAt 26 19).inLen.toNat < (footerAt 26 19).pos.toNat + 8) :=
  ⟨⟨blkMoves_self rfl rfl, rfl, by decide⟩, ⟨blkMoves_self rfl rfl, rfl, by decide⟩,
    ⟨blkMoves_self rfl rfl, rfl, by decide, by decide, by decide⟩, blkMoves_self rfl rfl, rfl, by decide⟩

theorem witness_IdleBlock :
    State.reset.phase = .idle ∧ ({ State.reset with rst := true } : State).rst = true ∧
    State.reset.inbox = [] ∧ (hostDoes .blk State.reset).inbox = .blk :: [] := by decide

/-- The last byte each unit needs is missing. -/
theorem witness_UnansweredRead :
    (let s : State := { sniffAt 4 with stream := placeBytes [] 0 [0x71, 0x6F, 0x69] }
     BlkMoves s s ∧ s.phase = .sniff ∧ 4 ≤ s.inLen.toNat ∧ s.stream.read 3 = none) ∧
    (let s := headerAt 14 4 0
     BlkMoves s s ∧ s.phase = .header ∧ 14 ≤ s.inLen.toNat ∧ s.stream.read 13 = none) ∧
    (let s := opsAt 15 14 0 1 Pixel.seed
     BlkMoves s s ∧ s.phase = .ops ∧ s.pos.toNat < s.inLen.toNat ∧ s.stream.read s.pos.toNat = none) ∧
    (let s : State := { opsAt 16 14 0 1 Pixel.seed with stream := [(14, 0x80)] }
     BlkMoves s s ∧ s.phase = .ops ∧ s.stream.read s.pos.toNat = some 0x80 ∧ 1 < (dispatch 0x80).length ∧
      s.pos.toNat + (dispatch 0x80).length ≤ s.inLen.toNat ∧ s.stream.read (s.pos.toNat + 1) = none) ∧
    (let s := footerAt 27 19
     BlkMoves s s ∧ s.phase = .footer ∧ s.pos.toNat + 8 ≤ s.inLen.toNat ∧
      s.stream.read (s.pos.toNat + 7) = none) :=
  ⟨⟨blkMoves_self rfl rfl, rfl, by decide, by decide⟩, ⟨blkMoves_self rfl rfl, rfl, by decide, by decide⟩,
    ⟨blkMoves_self rfl rfl, rfl, by decide, by decide⟩,
    ⟨blkMoves_self rfl rfl, rfl, by decide, by decide, by decide, by decide⟩,
    blkMoves_self rfl rfl, rfl, by decide, by decide⟩

/-- Two streams that agree below IN_LEN and differ at IN_LEN. -/
theorem witness_ReadsOnlyBelow : ∃ t : State,
    BlkMoves (sniffAt 3) (sniffAt 3) ∧ step (sniffAt 3) = .next t ∧
    ∀ k < (sniffAt 3).inLen.toNat,
      Memory.read [(0, 0x71), (1, 0x6F), (2, 0x69), (3, 0)] k = (sniffAt 3).stream.read k := by
  refine ⟨_, ⟨rfl, .inl ⟨rfl, rfl⟩⟩, rfl, fun k h => ?_⟩
  have h : k < 3 := h
  interval_cases k <;> rfl

/-- HOST writes IN_LEN while a command runs. -/
theorem witness_RunningCommand : ∃ t : State,
    let s := hostDoes (.csrWrite .word 0x08 99) (opsAt 15 14 0 1 Pixel.seed)
    s.phase ≠ .idle ∧ s.phase ≠ .sniff ∧ (∀ rest, s.inbox ≠ .rstAssert :: rest) ∧
    (∀ rest, s.inbox ≠ .rstRelease :: rest) ∧ step s = .next t :=
  ⟨_, by decide, by decide, (fun _ h => by cases h), (fun _ h => by cases h), rfl⟩

theorem witness_ErrorsArePrecise : ∃ t : State,
    let s := opsAt 14 14 0 1 Pixel.seed
    BlkMoves s s ∧ s.phase ≠ .idle ∧ step s = .next t ∧ t.phase = .idle ∧ t.ok = false :=
  ⟨_, ⟨rfl, .inl ⟨rfl, rfl⟩⟩, by decide, rfl, rfl, rfl⟩

/-- An opcode is due in a state that meets the invariant, with the image at the top of the sink space. -/
theorem opsAt_inv : (opsAt 15 14 0 1 Pixel.seed).Inv where
  stream_wf := ⟨List.Pairwise.nil, fun _ h => by cases h⟩
  sink_wf := ⟨List.Pairwise.nil, fun _ h => by cases h⟩
  before_wf := ⟨List.Pairwise.nil, fun _ h => by cases h⟩
  total_eq := by decide
  index_le := by decide
  header_clear := fun h => by cases h
  ops_index := fun _ => by decide
  footer_index := fun h => by cases h
  fits := fun _ => by decide
  pos_in := fun _ => by decide
  busy_clear := fun _ => by decide
  result_legal := by decide
  done_ok := fun h => by cases h
  cache_last := fun _ _ => by decide
  rst_idle := fun h => by cases h

theorem witness_BlockWrites : ∃ t : State,
    (opsAt 15 14 0 1 Pixel.seed).Inv ∧
    BlkMoves (opsAt 15 14 0 1 Pixel.seed) (opsAt 15 14 0 1 Pixel.seed) ∧
    step (opsAt 15 14 0 1 Pixel.seed) = .next t :=
  ⟨_, opsAt_inv, ⟨rfl, .inl ⟨rfl, rfl⟩⟩, rfl⟩

theorem witness_WordsFromOutIndexOn : ∃ t u : State,
    State.reset.phase = .idle ∧ exec (.cmdDecode true) State.reset = .next u ∧
    (opsAt 15 14 0 1 Pixel.seed).Inv ∧
    BlkMoves (opsAt 15 14 0 1 Pixel.seed) (opsAt 15 14 0 1 Pixel.seed) ∧
    OnlyPrefixWritten (opsAt 15 14 0 1 Pixel.seed) ∧ step (opsAt 15 14 0 1 Pixel.seed) = .next t :=
  ⟨_, _, rfl, rfl, opsAt_inv, blkMoves_self rfl rfl, fun _ _ => rfl, rfl⟩

/-- The first and the last sink byte of the OUT_CAP words, and the last one of the TOTAL words where there
are more of those (a sniff after an earlier header), while BUSY. -/
theorem witness_HostMayNotDisturb_sink :
    (let s := { opsAt 15 14 0 1 Pixel.seed with outCap := 3 }
     ∀ x ∈ [(0x1000 : Word), 0x100B],
      HostMoves (hostDoes (.sinkRead x) s) (.sinkRead x) s ∧
      HostMoves (hostDoes (.sinkWrite x 1) s) (.sinkWrite x 1) s ∧ s.phase ≠ .idle ∧
      s.outBase.toNat ≤ x.toNat ∧ x.toNat < s.outBase.toNat + 4 * s.outCap.toNat) ∧
    (let s := { opsAt 15 14 0 2 Pixel.seed with phase := .sniff, outCap := 1 }
     HostMoves (hostDoes (.sinkRead 0x1007) s) (.sinkRead 0x1007) s ∧ s.phase ≠ .idle ∧
      s.outBase.toNat ≤ (0x1007 : Word).toNat ∧ (0x1007 : Word).toNat < s.outBase.toNat + 4 * s.total.toNat) := by
  refine ⟨fun x h => ?_, hostMoves_hostDoes _ rfl, by decide, by decide, by decide⟩
  simp only [List.mem_cons, List.not_mem_nil, or_false] at h
  rcases h with rfl | rfl <;>
    exact ⟨hostMoves_hostDoes _ rfl, hostMoves_hostDoes _ rfl, by decide, by decide, by decide⟩

/-- A byte of S that the port has, while a command runs, and the same turns while idle. -/
theorem witness_HostMayNotDisturb_stream :
    (let s : State := { opsAt 15 14 0 1 Pixel.seed with stream := [(14, 0xC0)] }
     HostMoves (hostDoes (.streamWrite 14 0xC1) s) (.streamWrite 14 0xC1) s ∧ s.phase ≠ .idle ∧
      (14 : Word).toNat < s.inLen.toNat ∧ ∃ u, s.stream.read (14 : Word).toNat = some u ∧ u ≠ 0xC1) ∧
    (HostMoves (hostDoes (.streamWrite 14 0xC1) State.reset) (.streamWrite 14 0xC1) State.reset ∧
      HostMoves (hostDoes (.sinkWrite 0 1) State.reset) (.sinkWrite 0 1) State.reset ∧
      State.reset.phase = .idle) ∧
    (let s : State := { State.reset with sink := [(7, 9)] }
     HostMoves (hostDoes (.sinkRead 7) s) (.sinkRead 7) s ∧ s.phase = .idle ∧
      s.sink.read (7 : Word).toNat = some 9) :=
  ⟨⟨hostMoves_hostDoes _ rfl, by decide, by decide, 0xC0, rfl, by decide⟩,
    ⟨hostMoves_hostDoes _ rfl, hostMoves_hostDoes _ rfl, rfl⟩, hostMoves_hostDoes _ rfl, rfl, rfl⟩

theorem witness_ReleasedReset :
    let s := hostDoes .rstRelease { State.reset with rst := true, pos := 7 }
    s.rst = true ∧ HostMoves s .rstRelease { State.reset with rst := true, pos := 7 } :=
  ⟨rfl, [], rfl, rfl⟩

theorem hostDoes_opsAt_inv (t : Turn) : (hostDoes t (opsAt 15 14 0 1 Pixel.seed)).Inv where
  stream_wf := opsAt_inv.stream_wf
  sink_wf := opsAt_inv.sink_wf
  before_wf := opsAt_inv.before_wf
  total_eq := opsAt_inv.total_eq
  index_le := opsAt_inv.index_le
  header_clear := opsAt_inv.header_clear
  ops_index := opsAt_inv.ops_index
  footer_index := opsAt_inv.footer_index
  fits := opsAt_inv.fits
  pos_in := opsAt_inv.pos_in
  busy_clear := opsAt_inv.busy_clear
  result_legal := opsAt_inv.result_legal
  done_ok := opsAt_inv.done_ok
  cache_last := opsAt_inv.cache_last
  rst_idle := opsAt_inv.rst_idle

theorem witness_AbandonedDecode :
    let s := hostDoes .rstAssert (opsAt 15 14 0 1 Pixel.seed)
    s.Inv ∧ s.rst = false ∧ s.decoding ∧ HostMoves s .rstAssert (opsAt 15 14 0 1 Pixel.seed) ∧
    0 < s.total.toNat :=
  ⟨hostDoes_opsAt_inv _, rfl, .inl rfl, ⟨[], rfl, rfl⟩, by decide⟩

/-- Every PHASE in which no sink byte can have been written, and `rst` asserted already. -/
theorem witness_AbandonedDecode_early :
    (∀ s ∈ [State.reset, sniffAt 4, headerAt 14 4 0],
      (hostDoes .rstAssert s).rst = false ∧ ¬(hostDoes .rstAssert s).decoding ∧
      HostMoves (hostDoes .rstAssert s) .rstAssert s) ∧
    (let s : State := { State.reset with rst := true }
     (hostDoes .rstAssert s).rst = true ∧ HostMoves (hostDoes .rstAssert s) .rstAssert s) := by
  refine ⟨fun s h => ?_, rfl, hostMoves_hostDoes _ rfl⟩
  simp only [List.mem_cons, List.not_mem_nil, or_false] at h
  rcases h with rfl | rfl | rfl <;>
    exact ⟨rfl, (fun d => by rcases d with d | d <;> cases d), hostMoves_hostDoes _ rfl⟩

theorem witness_EveryStep : ∃ t : State,
    (hostDoes (.csrWrite .word 0x00 2) (opsAt 15 14 0 1 Pixel.seed)).Inv ∧
    step (hostDoes (.csrWrite .word 0x00 2) (opsAt 15 14 0 1 Pixel.seed)) = .next t :=
  ⟨_, hostDoes_opsAt_inv _, rfl⟩

/-- A header of a 1 by 1 image with nothing after it, all of it answered. -/
theorem witness_DecodeEnds :
    let s : State := { sniffAt 14 with phase := .header, outCap := 1 }
    s.rst = false ∧ s.inbox = [] ∧ s.phase = .header ∧ ∀ k < s.inLen.toNat, s.stream.read k ≠ none := by
  refine ⟨rfl, rfl, rfl, fun k h => ?_⟩
  have h : k < 14 := h
  interval_cases k <;> decide

theorem witness_Runx : 1 ≤ 1 ∧ 62 % 62 = 0 ∧ 63 % 62 ≠ 0 := by decide

/-- The ends of the operand ranges, and the first values past them (R86): a header's sizes, bytes, INDEX,
DIFF, LUMA and RUN. -/
theorem witness_AssemblerRanges :
    ((0 : Int) ≤ 2 ^ 32 - 1 ∧ (2 : Int) ^ 32 - 1 < 2 ^ 32 ∧ ¬(2 : Int) ^ 32 < 2 ^ 32 ∧ ¬(0 : Int) ≤ -1) ∧
    ((0 : Int) ≤ 255 ∧ ¬(256 : Int) ≤ 255 ∧ (∀ v ∈ [(0 : Int), 255], 0 ≤ v ∧ v ≤ 255) ∧
      ¬∀ v ∈ [(0 : Int), 256], 0 ≤ v ∧ v ≤ 255) ∧
    ((0 : Int) ≤ 63 ∧ ¬(64 : Int) ≤ 63) ∧
    ((-2 : Int) ≤ -2 ∧ (1 : Int) ≤ 1 ∧ ¬(-3 : Int) ≥ -2) ∧ ((-32 : Int) ≤ -32 ∧ (31 : Int) ≤ 31 ∧ ¬(32 : Int) ≤ 31) ∧
    ((-8 : Int) ≤ -8 ∧ (7 : Int) ≤ 7 ∧ ¬(8 : Int) ≤ 7) ∧ ((1 : Int) ≤ 62 ∧ ¬(63 : Int) ≤ 62 ∧ ¬(1 : Int) ≤ 0) := by
  decide

end Sys2Proof.Tests
end

/-! PROOFS. The scope family (00_scope.md R7, R8): whose step it is, and that the step runs what is decoded. -/

namespace Sys2Proof.Claims

open Sys2Proof.Machine

/-! ## BLK's step -/

/-- A step of BLK is its unit, on the state with the turn taken off HOST's list (R7, R8). -/
theorem BlkMoves.step_eq {s b : State} (h : BlkMoves s b) : step s = blkUnit b := by
  obtain ⟨hr, ⟨hi, rfl⟩ | ⟨rest, hi, rfl⟩⟩ := h
  · rw [step_of_inbox_nil hi, blkTurn_of_released hr]
  · rw [step_of_inbox_cons hi]
    exact blkTurn_of_released hr

/-- The unit that is due does not depend on HOST's coming turns. -/
theorem BlkMoves.due_eq {s b : State} (h : BlkMoves s b) : due b = due s := by
  obtain ⟨-, ⟨-, rfl⟩ | ⟨rest, -, rfl⟩⟩ := h <;> rfl

/-- A step of BLK at a complete unit runs the unit's instruction. -/
theorem BlkMoves.step_of_due_instr {s b : State} {i : Instr} (h : BlkMoves s b) (hd : due s = .instr i) :
    step s = exec i b := by
  rw [h.step_eq, blkUnit_instr (h.due_eq.trans hd)]

/-! ## The bytes of a unit -/

/-- A header decoded with nothing left over has 14 bytes (R70). -/
theorem decodeHeader_length {bs : List Byte} {i : Instr} (h : decodeHeader bs = .ok (i, [])) :
    bs.length = 14 := by
  unfold decodeHeader at h
  split at h <;> cases h
  rfl

/-- A footer decoded with nothing left over has 8 bytes (R73). -/
theorem decodeFooter_length {bs : List Byte} {i : Instr} (h : decodeFooter bs = .ok (i, [])) :
    bs.length = 8 := by
  unfold decodeFooter at h
  split at h <;> cases h
  rfl

/-- Bytes that lie in the stream and decode are fetched as their instruction. -/
theorem Placed.fetchUnit_eq {s : State} {u : StreamUnit} {d : BitVec 4} {off : Nat} {bs : List Byte}
    {i : Instr} (h : Placed s off bs) (hd : decode (.unit u bs) = .ok (i, [])) :
    fetchUnit u d off bs.length s = .instr i :=
  fetchUnit_instr (readBytes_of_read bs off h) hd

/-- The header that is due (R102). -/
theorem due_header {s : State} {bs : List Byte} {i : Instr} (hp : s.phase = .header)
    (hl : 14 ≤ s.inLen.toNat) (h : Placed s 0 bs) (hd : decode (.unit .header bs) = .ok (i, [])) :
    due s = .instr i := by
  have hn : bs.length = Config.hdrLen := decodeHeader_length hd
  have hshort : ¬ s.inLen.toNat < Config.hdrLen := Nat.not_lt.2 hl
  simp only [due, hp, if_neg hshort]
  exact hn ▸ h.fetchUnit_eq hd

/-- The opcode that is due: its tag is read first and asks for exactly the bytes decoded (R110). -/
theorem due_opcode {s : State} {bs : List Byte} {i : Instr} (hp : s.phase = .ops)
    (hl : s.pos.toNat + bs.length ≤ s.inLen.toNat) (h : Placed s s.pos.toNat bs)
    (hd : decode (.unit .opcode bs) = .ok (i, [])) : due s = .instr i := by
  obtain ⟨t, bs', rfl, hn⟩ := decodeOpcode_length hd
  have htag : s.stream.read s.pos.toNat = some t := h 0 (by simp)
  have hpos := (dispatch t).length_pos
  have hin : ¬ s.inLen.toNat ≤ s.pos.toNat := by omega
  have hshort : ¬ s.inLen.toNat < s.pos.toNat + (dispatch t).length := by omega
  simp only [due, hp, dueOpcode, if_neg hin, htag, if_neg hshort]
  exact hn ▸ h.fetchUnit_eq hd

/-- The footer that is due (R136). -/
theorem due_footer {s : State} {bs : List Byte} {i : Instr} (hp : s.phase = .footer)
    (hl : s.pos.toNat + 8 ≤ s.inLen.toNat) (h : Placed s s.pos.toNat bs)
    (hd : decode (.unit .footer bs) = .ok (i, [])) : due s = .instr i := by
  have hn : bs.length = Config.ftrLen := decodeFooter_length hd
  have hshort : ¬ s.inLen.toNat < s.pos.toNat + Config.ftrLen := Nat.not_lt.2 hl
  simp only [due, hp, if_neg hshort]
  exact hn ▸ h.fetchUnit_eq hd

/-! ## HOST's write -/

/-- A step of HOST is its turn, on the state with the turn taken off the list. -/
theorem HostMoves.step_eq {s b : State} {t : Turn} (h : HostMoves s t b) : step s = hostTurn t b := by
  obtain ⟨rest, hi, rfl⟩ := h
  exact step_of_inbox_cons hi

/-- An aligned word write in the window, as a step (R26). -/
theorem HostMoves.step_csrWrite {s b : State} {off : Nat} {v : Word}
    (h : HostMoves s (.csrWrite .word (s.csrBase + off) v) b) (hr : s.rst = false) (hoff : off < 64)
    (h4 : off % 4 = 0) : step s = csrWrite off v b := by
  rw [h.step_eq]
  obtain ⟨rest, -, rfl⟩ := h
  exact hostWrite_inside (s := { s with inbox := rest }) v hr hoff h4

/-- A write that decodes runs its command. -/
theorem csrWrite_of_decode {off : Nat} {v : Word} {i : Instr} {rest : List Byte}
    (h : decode (.csrWrite off v) = .ok (i, rest)) (s : State) : csrWrite off v s = exec i s := by
  simp only [csrWrite, h]

/-- Only writes to CTRL and STATUS are commands (R88, R89, R90, R93). -/
theorem offset_of_decode_csrWrite {off : Nat} {v : Word} {p : Instr × List Byte}
    (h : decode (.csrWrite off v) = .ok p) : off = 0x00 ∨ off = 0x04 := by
  by_contra hoff
  obtain ⟨h0, h4⟩ := not_or.1 hoff
  simp [decode, decodeWrite, h0, h4, Except.map] at h

/-! ## The obligation -/

/-- Settles O38: each unit that is due fetches its bytes as the instruction they decode to, and a write
that decodes is to CTRL or STATUS, so it is an aligned access of the window. -/
theorem stepRunsTheDecodedInstruction : Obligations.StepRunsTheDecodedInstruction := by
  intro s b i
  refine ⟨?header, ?opcode, ?footer, ?write⟩
  case header =>
    intro bs hb hp hl h hd
    exact hb.step_of_due_instr (due_header hp hl h hd)
  case opcode =>
    intro bs hb hp hl h hd
    exact hb.step_of_due_instr (due_opcode hp hl h hd)
  case footer =>
    intro bs hb hp hl h hd
    exact hb.step_of_due_instr (due_footer hp hl h hd)
  case write =>
    intro off v hr hh hd
    have hoff := offset_of_decode_csrWrite hd
    rw [hh.step_csrWrite hr (by omega) (by omega), csrWrite_of_decode hd]

end Sys2Proof.Claims

/-! PROOFS. The state family (10_state.md), its first layer: all that one step can leave, said once, as the effects of
BLK's unit, of a write in the CSR window and of a HOST turn. -/

namespace Sys2Proof.Machine

/-! ## BLK's unit -/

/-- What BLK's unit can leave of `s` (R8), each effect with the PHASE and the checks it comes under. -/
inductive BlkEffect (s : State) : State → Prop where
  /-- BLK is idle, or a read it needs is not answered (R51, R162). -/
  | hold : BlkEffect s s
  /-- The sniff's result (R97). -/
  | sniff (hp : s.phase = .sniff) (m : Bool) : BlkEffect s (sniffUnit m s)
  /-- An error of a unit that has loaded nothing (R146). -/
  | raised (hi : s.phase ≠ .idle) (hs : s.phase ≠ .sniff) {e : ErrKind} {d : BitVec 4}
      (he : e ≠ .noError) (hd : legalResult e d = true) : BlkEffect s (raiseErr e d s)
  /-- The header's AllocationFailure, its fields already loaded (R104, R107). -/
  | tooLarge (hp : s.phase = .header) (w h : Word) (c k : Byte) {d : BitVec 4}
      (hd : legalResult .allocationFailure d = true) :
      BlkEffect s (raiseErr .allocationFailure d (loadHeader w h c k s))
  /-- A header that passes its checks (R108). -/
  | headerDone (hp : s.phase = .header) (w h : Word) (c k : Byte) (hlen : 14 ≤ s.inLen.toNat)
      (hcap : (totalOf w h).toNat ≤ s.outCap.toNat)
      (hfit : s.outBase.toNat + 4 * (totalOf w h).toNat ≤ 2 ^ 32) :
      BlkEffect s (initDecode (loadHeader w h c k s))
  /-- An opcode that commits (R116). -/
  | committed (hp : s.phase = .ops) {len n : Nat} (px : Pixel) (hlen : 1 ≤ len) (hn : 1 ≤ n)
      (hpos : s.pos.toNat + len ≤ s.inLen.toNat) (hidx : s.outIndex.toNat + n ≤ s.total.toNat) :
      BlkEffect s (commit px n len s)
  /-- A footer that agrees with the end marker (R136, R140). -/
  | footerDone (hp : s.phase = .footer) (hpos : s.pos.toNat + 8 ≤ s.inLen.toNat) :
      BlkEffect s (complete { s with pos := s.pos + 8 })

/-- TruncatedInput has the details 1 to 5 (R148). -/
theorem legalResult_truncatedInput {d : BitVec 4} (h1 : 1 ≤ d.toNat) (h5 : d.toNat ≤ 5) :
    legalResult .truncatedInput d = true := by
  simp [legalResult, h1, h5]

/-- InvalidEndMarker has the details 1 to 8, one for each footer byte (R136, R148). -/
theorem legalResult_invalidEndMarker {j : Nat} (h : j < 8) :
    legalResult .invalidEndMarker (BitVec.ofNat 4 (j + 1)) = true := by
  simp only [legalResult, BitVec.toNat_ofNat, decide_eq_true_eq]
  omega

/-- The header unit's effect (R102). -/
theorem blkEffect_of_execHeader {s t : State} {m w h : Word} {c k : Byte} (hp : s.phase = .header)
    (ht : execHeader m w h c k s = .next t) : BlkEffect s t := by
  have hi : s.phase ≠ .idle := by simp [hp]
  have hs : s.phase ≠ .sniff := by simp [hp]
  obtain ⟨-, e⟩ | ⟨-, -, e⟩ | ⟨-, -, -, e⟩ | ⟨-, -, -, -, e⟩ | ⟨hlen, -, hcap, hfit, e⟩ :=
    execHeader_cases m w h c k s <;> cases e.symm.trans ht
  · exact .raised hi hs (by decide) (by decide)
  · exact .raised hi hs (by decide) (by decide)
  · exact .tooLarge hp w h c k (by decide)
  · exact .tooLarge hp w h c k (by decide)
  · exact .headerDone hp w h c k hlen hcap hfit

/-- The opcode unit's effect (R110). -/
theorem blkEffect_opcodeUnit {s : State} {len n : Nat} (hp : s.phase = .ops) (px : Pixel)
    (hlen : 1 ≤ len) (hn : 1 ≤ n) : BlkEffect s (opcodeUnit len px n s) := by
  have hi : s.phase ≠ .idle := by simp [hp]
  have hs : s.phase ≠ .sniff := by simp [hp]
  obtain ⟨-, e⟩ | ⟨-, -, e⟩ | ⟨-, -, -, e⟩ | ⟨-, hpos, hidx, e⟩ := opcodeUnit_cases len px n s <;> rw [e]
  · exact .raised hi hs (by decide) (by decide)
  · exact .raised hi hs (by decide) (by decide)
  · exact .raised hi hs (by decide) (by decide)
  · exact .committed hp px hlen hn hpos hidx

/-- The footer unit's effect (R136). -/
theorem blkEffect_of_execFooter {s t : State} {m : BitVec 64} (hp : s.phase = .footer)
    (ht : execFooter m s = .next t) : BlkEffect s t := by
  have hi : s.phase ≠ .idle := by simp [hp]
  have hs : s.phase ≠ .sniff := by simp [hp]
  obtain ⟨-, e⟩ | ⟨j, -, hj, e⟩ | ⟨hpos, -, e⟩ := execFooter_cases m s <;> cases e.symm.trans ht
  · exact .raised hi hs (by decide) (by decide)
  · exact .raised hi hs (by decide) (legalResult_invalidEndMarker (firstMismatch_some hj).1)
  · exact .footerDone hp hpos

/-- BLK's unit has one of these effects. -/
theorem blkEffect_of_blkUnit {s t : State} (ht : blkUnit s = .next t) : BlkEffect s t := by
  obtain e | ⟨hp, m, e⟩ | ⟨hi, hs, d, h1, h5, e⟩ | ⟨hp, m, w, h, c, k, e⟩ |
    ⟨hp, len, px, n, hlen, -, hn, -, e⟩ | ⟨hp, m, e⟩ := blkUnit_cases s
  · cases e.symm.trans ht
    exact .hold
  · cases e.symm.trans ht
    exact .sniff hp m
  · cases e.symm.trans ht
    exact .raised hi hs (by decide) (legalResult_truncatedInput h1 h5)
  · exact blkEffect_of_execHeader hp (e.symm.trans ht)
  · cases e.symm.trans ht
    exact blkEffect_opcodeUnit hp px hlen hn
  · exact blkEffect_of_execFooter hp (e.symm.trans ht)

/-- BLK's turn has one of these effects: while `rst` is asserted it holds (R163). -/
theorem blkEffect_of_blkTurn {s t : State} (ht : blkTurn s = .next t) : BlkEffect s t := by
  unfold blkTurn at ht
  split at ht
  · cases ht
    exact .hold
  · exact blkEffect_of_blkUnit ht

/-! ## A write in the CSR window -/

/-- What a HOST write in the CSR window can leave of `s` (40_host_commands.md). -/
inductive WriteEffect (s : State) : State → Prop where
  /-- A write that is ignored (R27, R93, R94). -/
  | ignored : WriteEffect s s
  /-- A CTRL write that starts nothing (R90, R92). -/
  | enable (ie : Bool) : WriteEffect s (setIe ie s)
  /-- CMD_SNIFF (R88, R91). -/
  | sniff (ie : Bool) : WriteEffect s (startSniff (setIe ie s))
  /-- CMD_DECODE (R89, R91). -/
  | decode (ie : Bool) : WriteEffect s (startDecode (setIe ie s))
  /-- ACK_DONE (R93). -/
  | acknowledged : WriteEffect s (acknowledge s)
  /-- A configuration register, taken while idle (R94). -/
  | configured (hp : s.phase = .idle) (l : Word) (b : BitVec 30) (c : Word) :
      WriteEffect s { s with inLen := l, outBaseHi := b, outCap := c }

/-- A write in the window has one of these effects. -/
theorem writeEffect_of_csrWrite {s t : State} {off : Nat} {v : Word} (ht : csrWrite off v s = .next t) :
    WriteEffect s t := by
  obtain ⟨i, hi, e⟩ | e | ⟨hp, l, b, c, e⟩ | e := csrWrite_cases off v s <;> have h := e.symm.trans ht
  · simp only [List.mem_cons, List.not_mem_nil, or_false] at hi
    obtain rfl | rfl | rfl | rfl := hi <;> cases h
    · exact .sniff _
    · exact .decode _
    · exact .enable _
    · exact .acknowledged
  · cases h
    exact .enable _
  · cases h
    exact .configured hp l b c
  · cases h
    exact .ignored

/-! ## HOST's turn -/

/-- What a turn can leave of `s`: every kind of turn, with the turn taken off the inbox already. -/
inductive TurnEffect (s : State) : Turn → State → Prop where
  | blk {t : State} (h : BlkEffect s t) : TurnEffect s .blk t
  /-- A read, in or outside the window: only what HOST holds and the draws change (R26, R41). -/
  | csrRead (w : AccessWidth) (a : Nat) (x : Word) (n : Nat) :
      TurnEffect s (.csrRead w a) { s with hostData := x, draws := n }
  /-- A write outside the window (R26). -/
  | writeOutside (w : AccessWidth) (a : Nat) (v : Word) : TurnEffect s (.csrWrite w a v) s
  /-- A write in the window, with `rst` released (R164). -/
  | writeInside (w : AccessWidth) (a : Nat) (v : Word) (hr : s.rst = false) {t : State}
      (h : WriteEffect s t) : TurnEffect s (.csrWrite w a v) t
  | streamWrite (off : Word) (b : Byte) :
      TurnEffect s (.streamWrite off b) { s with stream := s.stream.write off.toNat b }
  | sinkRead (a x : Word) : TurnEffect s (.sinkRead a) { s with hostData := x }
  | sinkWrite (a : Word) (b : Byte) :
      TurnEffect s (.sinkWrite a b) { s with sink := s.sink.write a.toNat b }
  | rstAssert : TurnEffect s .rstAssert (Machine.rstAssert s)
  | rstRelease : TurnEffect s .rstRelease (Machine.rstRelease s)

/-- A read in the window changes only what HOST holds and the draws. -/
theorem csrRead_eq_update (off : Nat) (s : State) :
    ∃ x n, csrRead off s = { s with hostData := x, draws := n } := by
  unfold csrRead
  split
  · exact ⟨_, _, rfl⟩
  · exact ⟨_, _, rfl⟩

/-- A read at a platform address. -/
theorem turnEffect_of_hostRead {s t : State} {w : AccessWidth} {a : Nat} (ht : hostRead w a s = .next t) :
    TurnEffect s (.csrRead w a) t := by
  unfold hostRead at ht
  split at ht
  · cases ht
    exact .csrRead w a _ _
  · split at ht <;> cases ht
    obtain ⟨x, n, e⟩ := csrRead_eq_update ‹_› s
    rw [e]
    exact .csrRead w a x n

/-- A write at a platform address. -/
theorem turnEffect_of_hostWrite {s t : State} {w : AccessWidth} {a : Nat} {v : Word}
    (ht : hostWrite w a v s = .next t) : TurnEffect s (.csrWrite w a v) t := by
  unfold hostWrite at ht
  split at ht
  · cases ht
    exact .writeOutside w a v
  · split at ht
    · cases ht
    · next hg => exact .writeInside w a v (csrGuard_none_iff.1 hg).1 (writeEffect_of_csrWrite ht)

/-- Every turn that answers a next state has one of these effects. -/
theorem turnEffect_of_hostTurn {s t : State} {u : Turn} (ht : hostTurn u s = .next t) : TurnEffect s u t := by
  cases u with
  | blk => exact .blk (blkEffect_of_blkTurn ht)
  | csrRead w a => exact turnEffect_of_hostRead ht
  | csrWrite w a v => exact turnEffect_of_hostWrite ht
  | streamWrite off b =>
    simp only [hostTurn, Machine.streamWrite] at ht
    split at ht <;> cases ht
    exact .streamWrite off b
  | sinkRead a =>
    simp only [hostTurn, Machine.sinkRead] at ht
    split at ht <;> cases ht
    exact .sinkRead a _
  | sinkWrite a b =>
    simp only [hostTurn, Machine.sinkWrite] at ht
    split at ht <;> cases ht
    exact .sinkWrite a b
  | rstAssert =>
    cases ht
    exact .rstAssert
  | rstRelease =>
    cases ht
    exact .rstRelease

/-- A step is BLK's unit or HOST's next turn, taken off the inbox (R7, R8). -/
theorem turnEffect_of_step {s t : State} (ht : step s = .next t) :
    (s.inbox = [] ∧ BlkEffect s t) ∨
    ∃ u rest, s.inbox = u :: rest ∧ TurnEffect { s with inbox := rest } u t := by
  cases hi : s.inbox with
  | nil =>
    rw [step_of_inbox_nil hi] at ht
    exact .inl ⟨rfl, blkEffect_of_blkTurn ht⟩
  | cons u rest =>
    rw [step_of_inbox_cons hi] at ht
    exact .inr ⟨u, rest, rfl, turnEffect_of_hostTurn ht⟩

end Sys2Proof.Machine

/-! PROOFS. The invariant of Sys2Proof/Safety.lean, operation by operation, and that every step keeps it. -/

namespace Sys2Proof.Machine

/-! ## What holds in every PHASE -/

/-- The part of the invariant that asks for no PHASE: the memories' form, TOTAL and OUT_INDEX. -/
structure State.BaseInv (s : State) : Prop where
  stream_wf : s.stream.wf
  sink_wf : s.sink.wf
  before_wf : s.sinkBefore.wf
  total_eq : s.total = totalOf s.width s.height
  index_le : s.outIndex.toNat ≤ s.total.toNat

theorem State.Inv.base {s : State} (h : s.Inv) : s.BaseInv := { h with }

/-- With no image, TOTAL and OUT_INDEX ask for nothing. -/
theorem State.BaseInv.of_no_image {s : State} (hstream : s.stream.wf) (hsink : s.sink.wf)
    (hbefore : s.sinkBefore.wf) (hw : s.width = 0) (hh : s.height = 0) (ht : s.total = 0)
    (hi : s.outIndex = 0) : s.BaseInv where
  stream_wf := hstream
  sink_wf := hsink
  before_wf := hbefore
  total_eq := by rw [ht, hw, hh]; rfl
  index_le := by simp [hi]

/-- In a state at rest the invariant asks for the base part and for a legal result. -/
theorem State.BaseInv.inv_of_idle {s : State} (h : s.BaseInv) (hp : s.phase = .idle)
    (hl : legalResult s.err s.detail = true) (hd : s.done = true → (s.ok = true ↔ s.err = .noError)) :
    s.Inv :=
  { h with
    header_clear := by simp [hp]
    ops_index := by simp [hp]
    footer_index := by simp [hp]
    fits := by simp [State.decoding, hp]
    pos_in := by simp [State.decoding, hp]
    busy_clear := by simp [hp]
    result_legal := hl
    done_ok := hd
    cache_last := by simp [State.decoding, hp]
    rst_idle := fun _ => hp }

/-- While a command runs, the STATUS fields that its start clears are legal as they are. -/
theorem legal_of_clear {s : State} (h : s.done = false ∧ s.ok = false ∧ s.err = .noError ∧ s.detail = 0) :
    legalResult s.err s.detail = true ∧ (s.done = true → (s.ok = true ↔ s.err = .noError)) := by
  obtain ⟨hdone, -, herr, hdet⟩ := h
  rw [herr, hdet]
  exact ⟨rfl, by simp [hdone]⟩

/-- In a decode past its header the PHASE follows OUT_INDEX (R30, R136), and the rest of the invariant is
the image that fits, POS in S, a clear result and the cache slot of the last pixel. -/
theorem State.BaseInv.inv_of_decoding {s : State} (h : s.BaseInv) (hr : s.rst = false)
    (hp : s.phase = if s.outIndex.toNat = s.total.toNat then .footer else .ops)
    (hfit : s.total.toNat ≤ s.outCap.toNat ∧ s.outBase.toNat + 4 * s.total.toNat ≤ 2 ^ 32)
    (hpos : 14 ≤ s.pos.toNat ∧ s.pos.toNat ≤ s.inLen.toNat)
    (hclear : s.done = false ∧ s.ok = false ∧ s.err = .noError ∧ s.detail = 0)
    (hcache : s.outIndex ≠ 0 → cacheLookup s (pixelHash s.lastPixel) = s.lastPixel) : s.Inv :=
  { h with
    header_clear := by rw [hp]; split <;> simp
    ops_index := by
      rw [hp]
      split
      · simp
      · next hne => exact fun _ => lt_of_le_of_ne h.index_le hne
    footer_index := by
      rw [hp]
      split
      · next heq => exact fun _ => heq
      · simp
    fits := fun _ => hfit
    pos_in := fun _ => hpos
    busy_clear := fun _ => hclear
    result_legal := (legal_of_clear hclear).1
    done_ok := (legal_of_clear hclear).2
    cache_last := fun _ => hcache
    rst_idle := by simp [hr] }

/-- A command runs only with `rst` released. -/
theorem State.Inv.released_of_busy {s : State} (h : s.Inv) (hp : s.phase ≠ .idle) : s.rst = false :=
  Bool.eq_false_iff.2 fun hr => hp (h.rst_idle hr)

/-! ## Ends of a command -/

/-- An error with a legal detail keeps the invariant, whatever command it ends (R146). -/
theorem State.BaseInv.inv_raiseErr {s : State} (h : s.BaseInv) {e : ErrKind} {d : BitVec 4}
    (he : e ≠ .noError) (hd : legalResult e d = true) : (raiseErr e d s).Inv :=
  State.BaseInv.inv_of_idle { h with } rfl hd (by simp [he])

/-- A completion keeps the invariant (R95). -/
theorem State.BaseInv.inv_complete {s : State} (h : s.BaseInv) : (complete s).Inv :=
  State.BaseInv.inv_of_idle { h with } rfl rfl (by simp)

/-! ## BLK's units -/

/-- The field load keeps the base part: OUT_INDEX is 0 while the header unit is due. -/
theorem State.Inv.base_loadHeader {s : State} (h : s.Inv) (hp : s.phase = .header) (w k : Word)
    (c cs : Byte) : (loadHeader w k c cs s).BaseInv := by
  obtain ⟨-, hi, -⟩ := h.header_clear hp
  exact { h.base with total_eq := rfl, index_le := by simp [hi] }

/-- A decode begins, from a loaded header that fits (R107, R108). -/
theorem State.BaseInv.inv_initDecode {s : State} (h : s.BaseInv) (hr : s.rst = false)
    (hlen : 14 ≤ s.inLen.toNat)
    (hfit : s.total.toNat ≤ s.outCap.toNat ∧ s.outBase.toNat + 4 * s.total.toNat ≤ 2 ^ 32)
    (hclear : s.done = false ∧ s.ok = false ∧ s.err = .noError ∧ s.detail = 0) :
    (initDecode s).Inv := by
  have hbase : (initDecode s).BaseInv := { h with index_le := Nat.zero_le _ }
  exact hbase.inv_of_decoding hr (by simp [eq_comm]) hfit ⟨Nat.le_refl 14, hlen⟩ hclear (by simp)

/-- A committed pixel stands in its own slot (R129). -/
theorem cacheLookup_commit (px : Pixel) (n len : Nat) (s : State) :
    cacheLookup (commit px n len s) (pixelHash px) = px := by
  simp [cacheLookup, cacheStore_get]

/-- A sum that stays below another 32-bit number does not wrap. -/
theorem toNat_add_ofNat {x y : Word} {n : Nat} (h : x.toNat + n ≤ y.toNat) :
    (x + BitVec.ofNat 32 n).toNat = x.toNat + n := by
  have := y.isLt
  rw [BitVec.toNat_add, BitVec.toNat_ofNat]
  omega

/-- A commit with its bytes in S and room in the image (R116): OUT_INDEX and POS
do not wrap, because the sink's and the stream's lengths are 32-bit. -/
theorem State.Inv.inv_commit {s : State} (h : s.Inv) (hp : s.phase = .ops) {len n : Nat} (px : Pixel)
    (hpos : s.pos.toNat + len ≤ s.inLen.toNat) (hidx : s.outIndex.toNat + n ≤ s.total.toNat) :
    (commit px n len s).Inv := by
  have hdec : s.decoding := .inl hp
  have hbusy : s.phase ≠ .idle := by simp [hp]
  obtain ⟨hcap, hroom⟩ := h.fits hdec
  obtain ⟨h14, -⟩ := h.pos_in hdec
  have hindex : (commit px n len s).outIndex.toNat = s.outIndex.toNat + n :=
    toNat_add_ofNat (hidx.trans hcap)
  have hposn : (commit px n len s).pos.toNat = s.pos.toNat + len := toNat_add_ofNat hpos
  have hbase : (commit px n len s).BaseInv :=
    { h.base with
      sink_wf := wf_writePixels _ _ _ _ h.sink_wf
      index_le := hindex.trans_le hidx }
  exact hbase.inv_of_decoding (h.released_of_busy hbusy) (by simp [hp]) ⟨hcap, hroom⟩
    ⟨by omega, hposn.trans_le hpos⟩ (h.busy_clear hbusy) fun _ => cacheLookup_commit px n len s

/-- Every unit of BLK keeps the invariant. -/
theorem State.Inv.blkEffect {s t : State} (h : s.Inv) (ht : BlkEffect s t) : t.Inv := by
  cases ht with
  | hold => exact h
  | sniff hp m => exact State.BaseInv.inv_complete { h.base with }
  | raised hi hs he hd => exact h.base.inv_raiseErr he hd
  | tooLarge hp w k c cs hd => exact (h.base_loadHeader hp w k c cs).inv_raiseErr (by decide) hd
  | headerDone hp w k c cs hlen hcap hfit =>
    have hbusy : s.phase ≠ .idle := by simp [hp]
    exact (h.base_loadHeader hp w k c cs).inv_initDecode (h.released_of_busy hbusy) hlen ⟨hcap, hfit⟩
      (h.busy_clear hbusy)
  | committed hp px hlen hn hpos hidx => exact h.inv_commit hp px hpos hidx
  | footerDone hp hpos => exact State.BaseInv.inv_complete { h.base with }

/-! ## HOST's writes -/

/-- A command begins (R88, R89): nothing is decoded yet, and the result is clear. -/
theorem State.BaseInv.inv_of_start {s : State} (h : s.BaseInv) (hr : s.rst = false)
    (hp : s.phase = .sniff ∨ s.phase = .header ∧
      s.pos = 0 ∧ s.outIndex = 0 ∧ s.width = 0 ∧ s.height = 0 ∧ s.channels = 0 ∧ s.colorspace = 0)
    (hclear : s.done = false ∧ s.ok = false ∧ s.err = .noError ∧ s.detail = 0) : s.Inv := by
  have hops : s.phase ≠ .ops := by rintro e; simp [e] at hp
  have hfooter : s.phase ≠ .footer := by rintro e; simp [e] at hp
  have hdec : ¬ s.decoding := fun hd => hd.elim hops hfooter
  exact { h with
    header_clear := fun e => hp.elim (fun e' => by simp [e] at e') And.right
    ops_index := fun e => absurd e hops
    footer_index := fun e => absurd e hfooter
    fits := fun hd => absurd hd hdec
    pos_in := fun hd => absurd hd hdec
    busy_clear := fun _ => hclear
    result_legal := (legal_of_clear hclear).1
    done_ok := (legal_of_clear hclear).2
    cache_last := fun hd => absurd hd hdec
    rst_idle := by simp [hr] }

/-- CMD_DECODE's start while idle (R89). -/
theorem startDecode_idle {s : State} (h : s.phase = .idle) :
    startDecode s = { clearResult s with
      pos := 0, outIndex := 0, width := 0, height := 0, channels := 0, colorspace := 0, total := 0,
      phase := .header, sinkBefore := s.sink } := by
  simp [startDecode, State.busy, h]

/-- CMD_SNIFF keeps the invariant, started (R88) or dropped (R91). -/
theorem State.Inv.inv_startSniff {s : State} (h : s.Inv) (hr : s.rst = false) : (startSniff s).Inv := by
  by_cases hp : s.phase = .idle
  · rw [startSniff_idle hp]
    exact State.BaseInv.inv_of_start { h.base with } hr (.inl rfl) ⟨rfl, rfl, rfl, rfl⟩
  · rwa [startSniff_busy hp]

/-- CMD_DECODE keeps the invariant, started (R89) or dropped (R91). -/
theorem State.Inv.inv_startDecode {s : State} (h : s.Inv) (hr : s.rst = false) :
    (startDecode s).Inv := by
  by_cases hp : s.phase = .idle
  · rw [startDecode_idle hp]
    exact State.BaseInv.inv_of_start (.of_no_image h.stream_wf h.sink_wf h.sink_wf rfl rfl rfl rfl) hr
      (.inr ⟨rfl, rfl, rfl, rfl, rfl, rfl, rfl⟩) ⟨rfl, rfl, rfl, rfl⟩
  · rwa [startDecode_busy hp]

/-- CTRL.IE is no part of the invariant (R92). -/
theorem State.Inv.inv_setIe {s : State} (h : s.Inv) (ie : Bool) : (setIe ie s).Inv := { h with }

/-- Every write in the window keeps the invariant. -/
theorem State.Inv.writeEffect {s t : State} (h : s.Inv) (hr : s.rst = false) (ht : WriteEffect s t) :
    t.Inv := by
  cases ht with
  | ignored => exact h
  | enable ie => exact h.inv_setIe ie
  | sniff ie => exact (h.inv_setIe ie).inv_startSniff hr
  | decode ie => exact (h.inv_setIe ie).inv_startDecode hr
  | acknowledged =>
    exact { h with
      busy_clear := fun hb => ⟨rfl, (h.busy_clear hb).2⟩
      done_ok := by simp }
  | configured hp l b c => exact State.BaseInv.inv_of_idle { h.base with } hp h.result_legal h.done_ok

/-! ## Reset -/

/-- The reset values meet the invariant, whatever ran before (R163). -/
theorem inv_resetRegisters {s : State} (hstream : s.stream.wf) (hsink : s.sink.wf) (r : Bool) :
    State.Inv { resetRegisters s with rst := r } := by
  have hbase : State.BaseInv { resetRegisters s with rst := r } :=
    .of_no_image hstream hsink Memory.wf_nil rfl rfl rfl rfl
  exact hbase.inv_of_idle rfl rfl (by simp [resetRegisters])

/-- An abandoned command leaves both memories in their form (R164). -/
theorem abandon_memories_wf {s : State} (hstream : s.stream.wf) (hsink : s.sink.wf) :
    (abandon s).stream.wf ∧ (abandon s).sink.wf := by
  unfold abandon
  split
  · exact ⟨hstream, wf_mixWords _ _ _ _ hsink _⟩
  · exact ⟨hstream, wf_mixWords _ _ _ _ hsink _⟩
  all_goals exact ⟨hstream, hsink⟩

/-- The assertion of `rst` keeps the invariant. -/
theorem State.Inv.inv_rstAssert {s : State} (h : s.Inv) : (rstAssert s).Inv := by
  unfold rstAssert
  split
  · exact h
  · obtain ⟨hstream, hsink⟩ := abandon_memories_wf h.stream_wf h.sink_wf
    exact inv_resetRegisters hstream hsink true

/-- The release of `rst` keeps the invariant. -/
theorem State.Inv.inv_rstRelease {s : State} (h : s.Inv) : (rstRelease s).Inv := by
  unfold rstRelease
  split
  · exact inv_resetRegisters h.stream_wf h.sink_wf false
  · exact h

/-! ## Every turn -/

/-- Every turn keeps the invariant. -/
theorem State.Inv.turnEffect {s t : State} {u : Turn} (h : s.Inv) (ht : TurnEffect s u t) : t.Inv := by
  cases ht with
  | blk ht => exact h.blkEffect ht
  | csrRead => exact { h with }
  | writeOutside => exact h
  | writeInside w a v hr ht => exact h.writeEffect hr ht
  | streamWrite off b => exact { h with stream_wf := Memory.wf_write h.stream_wf off.isLt b }
  | sinkRead => exact { h with }
  | sinkWrite a b => exact { h with sink_wf := Memory.wf_write h.sink_wf a.isLt b }
  | rstAssert => exact h.inv_rstAssert
  | rstRelease => exact h.inv_rstRelease

end Sys2Proof.Machine

namespace Sys2Proof.Claims

open Sys2Proof.Machine

/-- Settles O54: a step has one of the effects of a unit or of a turn, and each of them keeps the
invariant. -/
theorem everyStepKeepsTheInvariant : Obligations.EveryStepKeepsTheInvariant := by
  intro s t h ht
  obtain ⟨-, heff⟩ | ⟨u, rest, -, heff⟩ := turnEffect_of_step ht
  · exact h.blkEffect heff
  · have hrest : State.Inv { s with inbox := rest } := { h with }
    exact hrest.turnEffect heff

end Sys2Proof.Claims

/-! PROOFS. The CSR window (10_state.md R25 to R41): what HOST reads at each offset, which writes are ignored, which
accesses are refused, and that MATCH is the sniff unit's alone. -/

namespace Sys2Proof.Machine

/-! ## MATCH -/

/-- BLK's units but the sniff's keep MATCH. -/
theorem BlkEffect.matched_eq {s t : State} (h : BlkEffect s t) (hp : s.phase ≠ .sniff) :
    t.matched = s.matched := by
  cases h with
  | sniff hs m => exact absurd hs hp
  | hold | raised | tooLarge | headerDone | committed | footerDone => rfl

/-- A command's start keeps MATCH (R88, R89). -/
@[simp] theorem startSniff_matched (s : State) : (startSniff s).matched = s.matched := by
  unfold startSniff
  split <;> rfl

@[simp] theorem startDecode_matched (s : State) : (startDecode s).matched = s.matched := by
  unfold startDecode
  split <;> rfl

/-- No write in the window changes MATCH. -/
theorem WriteEffect.matched_eq {s t : State} (h : WriteEffect s t) : t.matched = s.matched := by
  cases h with
  | sniff ie => exact startSniff_matched _
  | decode ie => exact startDecode_matched _
  | ignored | enable | acknowledged | configured => rfl

/-- Among the turns only reset's write MATCH beside the sniff unit. -/
theorem TurnEffect.matched_eq {s t : State} {u : Turn} (h : TurnEffect s u t) (hp : s.phase ≠ .sniff)
    (ha : u ≠ .rstAssert) (hr : u ≠ .rstRelease) : t.matched = s.matched := by
  cases h with
  | blk h => exact h.matched_eq hp
  | writeInside w a v hr h => exact h.matched_eq
  | rstAssert => exact absurd rfl ha
  | rstRelease => exact absurd rfl hr
  | csrRead | writeOutside | streamWrite | sinkRead | sinkWrite => rfl

/-! ## Reads -/

/-- A read that is no result register's while BUSY (R41) holds the register and changes nothing else. -/
theorem csrRead_of_readable {off : Nat} {s : State} (h : s.phase = .idle ∨ off < 0x14 ∨ 0x34 ≤ off)
    (h4 : off % 4 = 0) : csrRead off s = { s with hostData := csrValue s off } := by
  have hfree : ¬ ((s.busy && isResultRegister off) = true) := by
    simp only [State.busy, isResultRegister, Bool.and_eq_true, decide_eq_true_eq]
    rintro ⟨hb, hlo, hhi⟩
    exact h.elim hb (by omega)
  exact if_neg hfree

/-- A result register read while BUSY is the next free draw (R41). -/
theorem csrRead_of_busy {off : Nat} {s : State} (hp : s.phase ≠ .idle) (hlo : 0x14 ≤ off)
    (hhi : off ≤ 0x30) :
    csrRead off s = { s with hostData := Config.freeWord s.draws, draws := s.draws + 1 } := by
  have hdraw : (s.busy && isResultRegister off) = true := by
    simp [State.busy, isResultRegister, hp, hlo, hhi]
  exact if_pos hdraw

/-- The reserved registers read 0 (R27). -/
theorem csrValue_reserved (s : State) {off : Nat} (h : 0x34 ≤ off) : csrValue s off = 0 := by
  unfold csrValue
  split
  case h_14 => rfl
  all_goals omega

/-! ## The words as numbers -/

theorem State.ctrlWord_toNat (s : State) : s.ctrlWord.toNat = 4 * s.ie.toNat := by
  simp only [State.ctrlWord, append_toNat, BitVec.toNat_ofNat, BitVec.toNat_ofBool]
  omega

theorem State.hdrInfo_toNat (s : State) :
    s.hdrInfo.toNat = s.colorspace.toNat * 2 ^ 8 + s.channels.toNat := by
  simp only [State.hdrInfo, append_toNat, BitVec.toNat_ofNat]
  omega

/-- LAST_PIXEL is the big-endian number of the four channels (R40). -/
theorem packWord_toNat (p : Pixel) :
    (packWord p).toNat = p.r.toNat * 2 ^ 24 + p.g.toNat * 2 ^ 16 + p.b.toNat * 2 ^ 8 + p.a.toNat :=
  be32_toNat p.r p.g p.b p.a

theorem total_lo_toNat (t : BitVec 64) : (t.extractLsb' 0 32).toNat = t.toNat % 2 ^ 32 := by
  simp [BitVec.extractLsb'_toNat]

theorem total_hi_toNat (t : BitVec 64) : (t.extractLsb' 32 32).toNat = t.toNat / 2 ^ 32 := by
  have := t.isLt
  rw [BitVec.extractLsb'_toNat, Nat.shiftRight_eq_div_pow]
  omega

/-- STATUS as a number: its fields at the places of R29. -/
theorem State.statusWord_toNat (s : State) :
    s.statusWord.toNat = s.phase.code.toNat * 2 ^ 12 + s.detail.toNat * 2 ^ 8 +
      s.err.code.toNat * 2 ^ 4 + s.matched.toNat * 8 + s.ok.toNat * 4 + s.done.toNat * 2 +
      s.busy.toNat := by
  simp only [State.statusWord, append_toNat, BitVec.toNat_ofNat, BitVec.toNat_ofBool]
  omega

/-- The fields of STATUS read off its number (R29), and 0 above PHASE. -/
theorem State.statusWord_fields (s : State) :
    s.statusWord.toNat / 2 ^ 0 % 2 = s.busy.toNat ∧ s.statusWord.toNat / 2 ^ 1 % 2 = s.done.toNat ∧
    s.statusWord.toNat / 2 ^ 2 % 2 = s.ok.toNat ∧ s.statusWord.toNat / 2 ^ 3 % 2 = s.matched.toNat ∧
    s.statusWord.toNat / 2 ^ 4 % 16 = s.err.code.toNat ∧
    s.statusWord.toNat / 2 ^ 8 % 16 = s.detail.toNat ∧
    s.statusWord.toNat / 2 ^ 12 = s.phase.code.toNat := by
  have := s.err.code.isLt
  have := s.detail.isLt
  have := s.matched.toNat_lt
  have := s.ok.toNat_lt
  have := s.done.toNat_lt
  have := s.busy.toNat_lt
  rw [s.statusWord_toNat]
  omega

/-- A bit from the number: what is at its place modulo 2. -/
theorem getLsbD_of_toNat {n : Nat} {v : BitVec n} {k : Nat} {b : Bool}
    (h : v.toNat / 2 ^ k % 2 = b.toNat) : v.getLsbD k = b := by
  rw [getLsbD_eq, h]
  cases b <;> rfl

theorem State.busy_iff (s : State) : s.busy = true ↔ s.phase ≠ .idle := by simp [State.busy]

/-! ## Writes that are ignored -/

/-- Above OUT_CAP no register takes a write (R27). -/
theorem csrWrite_readOnly {off : Nat} (h : 0x14 ≤ off) (v : Word) (s : State) :
    csrWrite off v s = .next s := by
  have hd : decode (.csrWrite off v) = .error .notCommandRegister := by
    have h0 : off ≠ 0x00 := by omega
    have h4 : off ≠ 0x04 := by omega
    simp [decode, decodeWrite, h0, h4, Except.map]
  have hplain : csrWritePlain off v s = s := by
    unfold csrWritePlain
    split
    case h_5 => rfl
    all_goals omega
  simp only [csrWrite, hd, hplain]

/-- A STATUS write that acknowledges nothing (R93). -/
theorem csrWrite_status_ignored {v : Word} (h : v.getLsbD 1 = false) (s : State) :
    csrWrite 0x04 v s = .next s := by
  have hd : decode (.csrWrite 0x04 v) = .error .noAcknowledge := by
    simp only [decode, decodeWrite, h]
    rfl
  simp only [csrWrite, hd]
  rfl

/-! ## Accesses outside the window, and accesses that are refused -/

/-- A write outside the window is not decoded (R26). -/
theorem hostWrite_outside {s : State} {addr : Nat} (h : addr < s.csrBase ∨ s.csrBase + 64 ≤ addr)
    (w : AccessWidth) (v : Word) : hostWrite w addr v s = .next s := by
  simp only [hostWrite, csrOffset_outside h]

/-- A read outside the window is the platform's (R26). -/
theorem hostRead_outside {s : State} {addr : Nat} (h : addr < s.csrBase ∨ s.csrBase + 64 ≤ addr)
    (w : AccessWidth) : hostRead w addr s =
      .next { s with hostData := Config.platformWord s.draws, draws := s.draws + 1 } := by
  simp only [hostRead, csrOffset_outside h]

/-- No access in the window while `rst` is asserted (R164). -/
theorem csrGuard_of_rst {s : State} (h : s.rst = true) (w : AccessWidth) (off : Nat) :
    csrGuard w off s = some .accessDuringReset := by
  simp [csrGuard, h]

/-- An access that is no aligned word (R26). -/
theorem csrGuard_of_bad {s : State} {w : AccessWidth} {off : Nat} (hr : s.rst = false)
    (h : w ≠ .word ∨ off % 4 ≠ 0) : csrGuard w off s = some .csrBadAccess := by
  have hbad : ¬ (w = .word ∧ off % 4 = 0) := fun ⟨hw, h4⟩ => h.elim (· hw) (· h4)
  simp [csrGuard, hr, hbad]

/-- A guarded access is refused for what the guard says, read or write. -/
theorem hostAccess_refused {s : State} {w : AccessWidth} {off : Nat} {r : Refusal} (hoff : off < 64)
    (hg : csrGuard w off s = some r) (v : Word) :
    hostRead w (s.csrBase + off) s = .refused r ∧ hostWrite w (s.csrBase + off) v s = .refused r := by
  simp only [hostRead, hostWrite, csrOffset_inside hoff, hg, and_self]

end Sys2Proof.Machine

namespace Sys2Proof.Claims

open Sys2Proof.Machine

/-- An aligned word read in the window, as a step (R26). -/
theorem HostMoves.step_csrRead {s b : State} {off : Nat}
    (h : HostMoves s (.csrRead .word (s.csrBase + off)) b) (hr : s.rst = false) (hoff : off < 64)
    (h4 : off % 4 = 0) : step s = .next (csrRead off b) := by
  rw [h.step_eq]
  obtain ⟨rest, -, rfl⟩ := h
  exact hostRead_inside (s := { s with inbox := rest }) hr hoff h4

/-- A read that is no result register's while BUSY, as a step: HOST holds the register of `s`. -/
theorem HostMoves.step_csrRead_value {s b : State} {off : Nat}
    (h : HostMoves s (.csrRead .word (s.csrBase + off)) b) (hr : s.rst = false) (hoff : off < 64)
    (h4 : off % 4 = 0) (hread : s.phase = .idle ∨ off < 0x14 ∨ 0x34 ≤ off) :
    step s = .next { b with hostData := csrValue s off } := by
  rw [h.step_csrRead hr hoff h4]
  obtain ⟨rest, -, rfl⟩ := h
  rw [csrRead_of_readable (s := { s with inbox := rest }) hread h4]
  rfl

/-- Settles O31: no register from 0x14 on takes a write, and a STATUS write with bit 1 = 0 acknowledges
nothing. -/
theorem readOnlyAndReservedWritesAreIgnored : Obligations.ReadOnlyAndReservedWritesAreIgnored := by
  intro s b off v hr h
  constructor
  · intro hlo hhi h4
    rw [h.step_csrWrite hr hhi h4, csrWrite_readOnly hlo]
  · rintro rfl h1
    have hbit : v.getLsbD 1 = false := by
      rw [getLsbD_eq]
      exact decide_eq_false (by omega)
    rw [h.step_csrWrite hr (by omega) (by omega), csrWrite_status_ignored hbit]

/-- Settles O33: the read holds `csrValue`, whose words are the registers, each as a number where it is
put together from fields. -/
theorem csrReadReturnsTheRegister : Obligations.CsrReadReturnsTheRegister := by
  intro s b off hr hoff h4 hread h
  refine ⟨csrValue s off, h.step_csrRead_value hr hoff h4 hread, ?ctrl, ?inLen, ?outBase, ?outCap, ?pos,
    ?width, ?height, ?hdrInfo, ?totalLo, ?totalHi, ?outIndex, ?lastPixel, csrValue_reserved s⟩
  case ctrl => rintro rfl; exact s.ctrlWord_toNat
  case hdrInfo => rintro rfl; exact s.hdrInfo_toNat
  case totalLo => rintro rfl; exact total_lo_toNat s.total
  case totalHi => rintro rfl; exact total_hi_toNat s.total
  case lastPixel => rintro rfl; exact packWord_toNat s.lastPixel
  all_goals rintro rfl; rfl

/-- Settles O34: the one-bit and the wider fields of the STATUS word, and the codes of ERR and PHASE. -/
theorem statusReadsItsFields : Obligations.StatusReadsItsFields := by
  intro s b hr h
  obtain ⟨hbusy, hdone, hok, hmatch, herr, hdetail, hphase⟩ := s.statusWord_fields
  refine ⟨s.statusWord, h.step_csrRead_value hr (by omega) (by omega) (.inr (.inl (by omega))), ?_,
    getLsbD_of_toNat hdone, getLsbD_of_toNat hok, getLsbD_of_toNat hmatch, herr.trans ?_, hdetail, hphase.trans ?_⟩
  · rw [getLsbD_of_toNat hbusy]
    exact s.busy_iff
  · cases s.err <;> rfl
  · cases s.phase <;> rfl

/-- Settles O45: of all that a step can leave, only the sniff's result and reset's turns write MATCH. -/
theorem matchIsWrittenOnlyByTheSniff : Obligations.MatchIsWrittenOnlyByTheSniff := by
  intro s t hp ha hr ht
  obtain ⟨-, heff⟩ | ⟨u, rest, hi, heff⟩ := turnEffect_of_step ht
  · exact heff.matched_eq hp
  · exact heff.matched_eq hp (fun e => ha rest (e ▸ hi)) (fun e => hr rest (e ▸ hi))

/-- Settles O32: outside the window a write does nothing, and a read changes what HOST holds and the
draws. -/
theorem accessOutsideTheWindowLeavesTheBlock : Obligations.AccessOutsideTheWindowLeavesTheBlock := by
  intro s b w addr v hout
  constructor
  · intro h
    rw [h.step_eq]
    obtain ⟨rest, -, rfl⟩ := h
    exact hostWrite_outside (s := { s with inbox := rest }) hout w v
  · intro h
    rw [h.step_eq]
    obtain ⟨rest, -, rfl⟩ := h
    exact ⟨_, _, hostRead_outside (s := { s with inbox := rest }) hout w⟩

/-- Settles O35: the read of a result register while BUSY is a draw. -/
theorem busyReadOfAResultRegisterIsAFreeDraw : Obligations.BusyReadOfAResultRegisterIsAFreeDraw := by
  intro s b off hr hp hlo hhi h4 h
  rw [h.step_csrRead hr (by omega) h4]
  obtain ⟨rest, -, rfl⟩ := h
  rw [csrRead_of_busy (s := { s with inbox := rest }) hp hlo hhi]

/-- Settles O36: the guard refuses, and an access in the window is refused as the guard says. -/
theorem csrAccessOutsideTheContractIsRefused : Obligations.CsrAccessOutsideTheContractIsRefused := by
  intro s b w off v hoff h
  have hrefuse : ∀ r, csrGuard w off s = some r → step s = .refused r := by
    intro r hg
    obtain h | h := h
    · rw [h.step_eq]
      obtain ⟨rest, -, rfl⟩ := h
      exact (hostAccess_refused (s := { s with inbox := rest }) hoff hg v).1
    · rw [h.step_eq]
      obtain ⟨rest, -, rfl⟩ := h
      exact (hostAccess_refused (s := { s with inbox := rest }) hoff hg v).2
  exact ⟨fun hr => hrefuse _ (csrGuard_of_rst hr w off), fun hr hbad => hrefuse _ (csrGuard_of_bad hr hbad)⟩

end Sys2Proof.Claims

/-! PROOFS. The memory family (20_memory.md): what BLK reads of S and waits for, which sink words it writes, and what
HOST may do to S and the sink while a command runs. -/

namespace Sys2Proof.Machine

/-! ## Reads that are not answered -/

/-- A sniff waits for its four bytes (R97, log entry 28). -/
theorem due_sniff_waiting {s : State} {k : Nat} (hp : s.phase = .sniff) (hl : 4 ≤ s.inLen.toNat)
    (hk : k < 4) (h : s.stream.read k = none) : due s = .waiting := by
  have hread : readBytes s.stream 0 4 = none := readBytes_eq_none hk (by rwa [Nat.zero_add])
  simp only [due, hp, dueSniff, if_neg (Nat.not_lt.2 hl), hread]

/-- A header waits for its 14 bytes (R102). -/
theorem due_header_waiting {s : State} {k : Nat} (hp : s.phase = .header) (hl : 14 ≤ s.inLen.toNat)
    (hk : k < 14) (h : s.stream.read k = none) : due s = .waiting := by
  have hshort : ¬ s.inLen.toNat < Config.hdrLen := Nat.not_lt.2 hl
  simp only [due, hp, if_neg hshort]
  exact fetchUnit_waiting hk (by rwa [Nat.zero_add])

/-- An opcode waits for its tag (R110). -/
theorem due_tag_waiting {s : State} (hp : s.phase = .ops) (hl : s.pos.toNat < s.inLen.toNat)
    (h : s.stream.read s.pos.toNat = none) : due s = .waiting := by
  simp only [due, hp, dueOpcode, if_neg (Nat.not_le.2 hl), h]

/-- An opcode waits for every byte that its tag asks for (R113). -/
theorem due_opcode_waiting {s : State} {tag : Byte} {k : Nat} (hp : s.phase = .ops)
    (htag : s.stream.read s.pos.toNat = some tag) (hk : k < (dispatch tag).length)
    (hl : s.pos.toNat + (dispatch tag).length ≤ s.inLen.toNat)
    (h : s.stream.read (s.pos.toNat + k) = none) : due s = .waiting := by
  have hin : ¬ s.inLen.toNat ≤ s.pos.toNat := by omega
  simp only [due, hp, dueOpcode, if_neg hin, htag, if_neg (Nat.not_lt.2 hl)]
  exact fetchUnit_waiting hk h

/-- A footer waits for its 8 bytes (R136). -/
theorem due_footer_waiting {s : State} {k : Nat} (hp : s.phase = .footer)
    (hl : s.pos.toNat + 8 ≤ s.inLen.toNat) (hk : k < 8) (h : s.stream.read (s.pos.toNat + k) = none) :
    due s = .waiting := by
  have hshort : ¬ s.inLen.toNat < s.pos.toNat + Config.ftrLen := Nat.not_lt.2 hl
  simp only [due, hp, if_neg hshort]
  exact fetchUnit_waiting hk h

/-! ## Which bytes a unit depends on -/

section Agreeing

variable {s : State} {m : Memory} (h : ∀ k < s.inLen.toNat, m.read k = s.stream.read k)
include h

/-- Bytes that lie in S read the same from a stream that agrees on S (R48). -/
theorem readBytes_of_agree {off n : Nat} (hn : off + n ≤ s.inLen.toNat) :
    readBytes m off n = readBytes s.stream off n :=
  readBytes_congr fun k _ hk => h k (by omega)

/-- So a unit that lies in S is fetched the same. -/
theorem fetchUnit_of_agree (u : StreamUnit) (d : BitVec 4) {off n : Nat} (hn : off + n ≤ s.inLen.toNat) :
    fetchUnit u d off n { s with stream := m } = fetchUnit u d off n s := by
  simp only [fetchUnit, readBytes_of_agree h hn]

theorem dueOpcode_of_agree : dueOpcode { s with stream := m } = dueOpcode s := by
  unfold dueOpcode
  by_cases hin : s.inLen.toNat ≤ s.pos.toNat
  · simp only [if_pos hin]
  · simp only [if_neg hin, h s.pos.toNat (Nat.not_le.1 hin)]
    cases s.stream.read s.pos.toNat with
    | none => rfl
    | some tag =>
      by_cases hshort : s.inLen.toNat < s.pos.toNat + (dispatch tag).length
      · simp only [if_pos hshort]
      · simp only [if_neg hshort]
        exact fetchUnit_of_agree h _ _ (Nat.not_lt.1 hshort)

/-- Each unit's length check comes before its reads, so the unit that is due depends on S alone (R49). -/
theorem due_of_agree : due { s with stream := m } = due s := by
  unfold due
  cases hp : s.phase with
  | idle => rfl
  | sniff =>
    by_cases hshort : s.inLen.toNat < 4
    · simp only [dueSniff, if_pos hshort]
    · simp only [dueSniff, if_neg hshort, readBytes_of_agree h (off := 0) (n := 4) (by omega)]
  | header =>
    by_cases hshort : s.inLen.toNat < Config.hdrLen
    · simp only [if_pos hshort]
    · simp only [if_neg hshort]
      exact fetchUnit_of_agree h _ _ (by omega)
  | ops => exact dueOpcode_of_agree h
  | footer =>
    by_cases hshort : s.inLen.toNat < s.pos.toNat + Config.ftrLen
    · simp only [if_pos hshort]
    · simp only [if_neg hshort]
      exact fetchUnit_of_agree h _ _ (Nat.not_lt.1 hshort)

end Agreeing

/-! ## No instruction looks at the stream -/

theorem opcodeUnit_withStream (len : Nat) (px : Pixel) (n : Nat) (s : State) (m : Memory) :
    opcodeUnit len px n { s with stream := m } = { opcodeUnit len px n s with stream := m } := by
  unfold opcodeUnit
  split_ifs <;> rfl

theorem execHeader_withStream {magic w h : Word} {c k : Byte} {s t : State} (m : Memory)
    (ht : execHeader magic w h c k s = .next t) :
    execHeader magic w h c k { s with stream := m } = .next { t with stream := m } := by
  have hcheck : allocationCheck (loadHeader w h c k { s with stream := m }) =
      allocationCheck (loadHeader w h c k s) := rfl
  unfold execHeader at ht ⊢
  split_ifs at ht ⊢
  · cases ht; rfl
  · cases ht; rfl
  · simp only [hcheck]
    cases hc : allocationCheck (loadHeader w h c k s) <;> simp only [hc] at ht ⊢ <;> cases ht <;> rfl

theorem execFooter_withStream {marker : BitVec 64} {s t : State} (m : Memory)
    (ht : execFooter marker s = .next t) :
    execFooter marker { s with stream := m } = .next { t with stream := m } := by
  unfold execFooter at ht ⊢
  split_ifs at ht ⊢
  · cases ht; rfl
  · split at ht <;> cases ht <;> rfl

theorem startSniff_withStream (s : State) (m : Memory) :
    startSniff { s with stream := m } = { startSniff s with stream := m } := by
  by_cases hp : s.phase = .idle
  · rw [startSniff_idle hp, startSniff_idle (s := { s with stream := m }) hp]; rfl
  · rw [startSniff_busy hp, startSniff_busy (s := { s with stream := m }) hp]

theorem startDecode_withStream (s : State) (m : Memory) :
    startDecode { s with stream := m } = { startDecode s with stream := m } := by
  by_cases hp : s.phase = .idle
  · rw [startDecode_idle hp, startDecode_idle (s := { s with stream := m }) hp]; rfl
  · rw [startDecode_busy hp, startDecode_busy (s := { s with stream := m }) hp]

/-- A decoded instruction runs the same over any stream, and leaves the stream as it is. -/
theorem exec_withStream {i : Instr} {s t : State} (m : Memory) (ht : exec i s = .next t) :
    exec i { s with stream := m } = .next { t with stream := m } := by
  cases i with
  | header magic w h c k => exact execHeader_withStream m ht
  | footer marker => exact execFooter_withStream m ht
  | cmdSniff ie => cases ht; exact congrArg _ (startSniff_withStream (setIe ie s) m)
  | cmdDecode ie => cases ht; exact congrArg _ (startDecode_withStream (setIe ie s) m)
  | cmdNoneBoth | ackDone => cases ht; rfl
  | rgb | rgba | index | diff | luma | run => cases ht; exact congrArg _ (opcodeUnit_withStream _ _ _ s m)

/-- BLK's unit is the same over streams that agree on S, but for the stream itself. -/
theorem blkUnit_of_agree {s t : State} {m : Memory} (h : ∀ k < s.inLen.toNat, m.read k = s.stream.read k)
    (ht : blkUnit s = .next t) : blkUnit { s with stream := m } = .next { t with stream := m } := by
  unfold blkUnit at ht ⊢
  rw [due_of_agree h]
  cases hd : due s <;> simp only [hd] at ht ⊢
  case instr i => exact exec_withStream m ht
  all_goals cases ht; rfl

/-! ## What BLK keeps and what it writes -/

/-- What a running command counts on (R50, R94): its configuration registers, and the bytes of S that the
stream port has. -/
def KeepsParams (s t : State) : Prop :=
  t.inLen = s.inLen ∧ t.outBaseHi = s.outBaseHi ∧ t.outCap = s.outCap ∧
  ∀ k < s.inLen.toNat, s.stream.read k ≠ none → t.stream.read k = s.stream.read k

/-- BLK writes no configuration register (R94) and no byte of S (R54). -/
theorem BlkEffect.keepsParams {s t : State} (h : BlkEffect s t) : KeepsParams s t := by
  cases h with
  | hold | sniff | raised | tooLarge | headerDone | committed | footerDone =>
    exact ⟨rfl, rfl, rfl, fun _ _ _ => rfl⟩

theorem BlkEffect.stream_eq {s t : State} (h : BlkEffect s t) : t.stream = s.stream := by
  cases h with
  | hold | sniff | raised | tooLarge | headerDone | committed | footerDone => rfl

/-- The sink bytes that a commit changes are those of the words from the old OUT_INDEX up to the new one
(R116, R141), when they fit the address space. -/
theorem commit_sink_changed {s : State} {px : Pixel} {n len a : Nat}
    (hfit : s.outBase.toNat + 4 * (s.outIndex.toNat + n) ≤ 2 ^ 32)
    (ha : (commit px n len s).sink.read a ≠ s.sink.read a) :
    s.outBase.toNat + 4 * s.outIndex.toNat ≤ a ∧ a < s.outBase.toNat + 4 * (s.outIndex.toNat + n) := by
  have hmiss := (writePixels_read s.outBase (layoutWord s.layout px) s.sinkAddr_mod a n
    s.outIndex.toNat s.sink).2
  by_contra hout
  refine ha (hmiss fun j hj q hq e => hout ?_)
  rw [sinkAddr_toNat, Nat.mod_eq_of_lt (by omega)] at e
  omega

/-- From a state that meets the invariant, a sink byte that BLK changes lies in the image's next words. -/
theorem State.Inv.sink_changed {s t : State} (h : s.Inv) (ht : BlkEffect s t) {a : Nat}
    (ha : t.sink.read a ≠ s.sink.read a) :
    s.phase = .ops ∧ s.outBase.toNat + 4 * s.outIndex.toNat ≤ a ∧
      a < s.outBase.toNat + 4 * t.outIndex.toNat ∧ a < s.outBase.toNat + 4 * s.total.toNat := by
  cases ht with
  | @committed hp len n px hlen hn hpos hidx =>
    obtain ⟨hcap, hroom⟩ := h.fits (.inl hp)
    have hindex : (commit px n len s).outIndex.toNat = s.outIndex.toNat + n :=
      toNat_add_ofNat (hidx.trans hcap)
    obtain ⟨hlo, hhi⟩ := commit_sink_changed (by omega) ha
    exact ⟨hp, hlo, by rwa [hindex], by omega⟩
  | hold | sniff | raised | tooLarge | headerDone | footerDone => exact absurd rfl ha

/-! ## HOST at the stream and the sink -/

/-- HOST may not change a byte of S that the port has while a command runs (R50, R65). -/
theorem streamWrite_refused {s : State} {off : Word} {b u : Byte} (hp : s.phase ≠ .idle)
    (hin : off.toNat < s.inLen.toNat) (hu : s.stream.read off.toNat = some u) (hne : u ≠ b) :
    streamWrite off b s = .refused .streamChangedWhileBusy :=
  if_pos ⟨s.busy_iff.2 hp, hin, by simp [hu], by simp [hu, hne]⟩

theorem streamWrite_idle {s : State} (hp : s.phase = .idle) (off : Word) (b : Byte) :
    streamWrite off b s = .next { s with stream := s.stream.write off.toNat b } :=
  if_neg fun hc => s.busy_iff.1 hc.1 hp

theorem sinkRead_refused {s : State} {a : Word} (h : sinkOwned s a = true) :
    sinkRead a s = .refused .sinkAccessWhileBusy := if_pos h

theorem sinkWrite_refused {s : State} {a : Word} (h : sinkOwned s a = true) (b : Byte) :
    sinkWrite a b s = .refused .sinkAccessWhileBusy := if_pos h

/-- While idle BLK owns no sink byte (R145). -/
theorem not_sinkOwned_idle {s : State} (hp : s.phase = .idle) (a : Word) : ¬ sinkOwned s a = true :=
  fun h => (sinkOwned_iff.1 h).1 hp

theorem sinkRead_idle {s : State} (hp : s.phase = .idle) (a : Word) :
    sinkRead a s = .next { s with
      hostData := ((s.sink.read a.toNat).getD (Config.unwrittenByte a.toNat)).setWidth 32 } :=
  if_neg (not_sinkOwned_idle hp a)

theorem sinkWrite_idle {s : State} (hp : s.phase = .idle) (a : Word) (b : Byte) :
    sinkWrite a b s = .next { s with sink := s.sink.write a.toNat b } :=
  if_neg (not_sinkOwned_idle hp a)

/-! ## What a running command's parameters survive -/

/-- No write in the window reaches a configuration register while a command runs, nor S (R91, R94). -/
theorem WriteEffect.keepsParams {s t : State} (h : WriteEffect s t) (hp : s.phase ≠ .idle) :
    KeepsParams s t := by
  cases h with
  | sniff ie =>
    rw [startSniff_busy (s := setIe ie s) hp]
    exact ⟨rfl, rfl, rfl, fun _ _ _ => rfl⟩
  | decode ie =>
    rw [startDecode_busy (s := setIe ie s) hp]
    exact ⟨rfl, rfl, rfl, fun _ _ _ => rfl⟩
  | configured hi => exact absurd hi hp
  | ignored | enable | acknowledged => exact ⟨rfl, rfl, rfl, fun _ _ _ => rfl⟩

/-- A stream write that is taken while a command runs keeps the bytes of S that the port has: one that
would change such a byte is refused. -/
theorem streamWrite_keeps_read {s t : State} {off : Word} {b : Byte} (ht : streamWrite off b s = .next t)
    (hp : s.phase ≠ .idle) {k : Nat} (hk : k < s.inLen.toNat) (hread : s.stream.read k ≠ none) :
    t.stream.read k = s.stream.read k := by
  obtain ⟨u, hu⟩ := Option.ne_none_iff_exists'.1 hread
  have hsame : off.toNat = k → u = b := by
    rintro rfl
    by_contra hne
    cases (streamWrite_refused hp hk hu hne).symm.trans ht
  cases turnEffect_of_hostTurn (u := .streamWrite off b) ht
  rw [Memory.read_write]
  split
  · next hoff => rw [hu, hsame hoff]
  · rfl

/-- While a command runs no turn but reset's changes what it counts on. -/
theorem keepsParams_of_hostTurn {s t : State} {u : Turn} (ht : hostTurn u s = .next t)
    (hp : s.phase ≠ .idle) (ha : u ≠ .rstAssert) (hr : u ≠ .rstRelease) : KeepsParams s t := by
  cases turnEffect_of_hostTurn ht with
  | blk h => exact h.keepsParams
  | writeInside w a v _ h => exact h.keepsParams hp
  | streamWrite off b => exact ⟨rfl, rfl, rfl, fun k hk hread => streamWrite_keeps_read ht hp hk hread⟩
  | rstAssert => exact absurd rfl ha
  | rstRelease => exact absurd rfl hr
  | csrRead | writeOutside | sinkRead | sinkWrite => exact ⟨rfl, rfl, rfl, fun _ _ _ => rfl⟩

end Sys2Proof.Machine

namespace Sys2Proof.Claims

open Sys2Proof.Machine

/-- A step of BLK at a read that is not answered changes nothing. -/
theorem BlkMoves.step_of_due_waiting {s b : State} (h : BlkMoves s b) (hd : due s = .waiting) :
    step s = .next b := by
  rw [h.step_eq, blkUnit_waiting (h.due_eq.trans hd)]

/-- Whether BLK moves does not depend on the stream. -/
theorem BlkMoves.withStream {s b : State} (h : BlkMoves s b) (m : Memory) :
    BlkMoves { s with stream := m } { b with stream := m } := by
  obtain ⟨hr, ⟨hi, rfl⟩ | ⟨rest, hi, rfl⟩⟩ := h
  · exact ⟨hr, .inl ⟨hi, rfl⟩⟩
  · exact ⟨hr, .inr ⟨rest, hi, rfl⟩⟩

/-- Settles O41: with a byte missing each unit is due as waiting, and BLK's step then changes nothing. -/
theorem unansweredReadHoldsTheBlock : Obligations.UnansweredReadHoldsTheBlock := by
  intro s b k hb
  refine ⟨?sniff, ?header, ?tag, ?opcode, ?footer⟩
  case sniff => exact fun hp hl hk h => hb.step_of_due_waiting (due_sniff_waiting hp hl hk h)
  case header => exact fun hp hl hk h => hb.step_of_due_waiting (due_header_waiting hp hl hk h)
  case tag => exact fun hp hl h => hb.step_of_due_waiting (due_tag_waiting hp hl h)
  case opcode =>
    exact fun tag hp htag hk hl h => hb.step_of_due_waiting (due_opcode_waiting hp htag hk hl h)
  case footer => exact fun hp hl hk h => hb.step_of_due_waiting (due_footer_waiting hp hl hk h)

/-- Settles O42: the unit that is due depends on S alone, and the instruction it runs on no stream. -/
theorem blockReadsOnlyBelowInLen : Obligations.BlockReadsOnlyBelowInLen := by
  intro s b t m hb hagree ht
  rw [hb.step_eq] at ht
  rw [(hb.withStream m).step_eq]
  refine blkUnit_of_agree ?_ ht
  obtain ⟨-, ⟨-, rfl⟩ | ⟨rest, -, rfl⟩⟩ := hb <;> exact hagree

/-- Settles O44: BLK writes none of them, and HOST's writes to them are ignored or refused while a command
runs. -/
theorem runningCommandKeepsItsParameters : Obligations.RunningCommandKeepsItsParameters := by
  intro s t hp ha hr ht
  cases hi : s.inbox with
  | nil =>
    rw [step_of_inbox_nil hi] at ht
    exact (blkEffect_of_blkTurn ht).keepsParams
  | cons u rest =>
    rw [step_of_inbox_cons hi] at ht
    exact keepsParams_of_hostTurn (s := { s with inbox := rest }) ht hp (fun e => ha rest (e ▸ hi))
      (fun e => hr rest (e ▸ hi))

/-- Settles O47: only a commit writes the sink, and under the invariant its words lie in the image. -/
theorem blockWritesOnlyTheNextWords : Obligations.BlockWritesOnlyTheNextWords := by
  intro s b t hinv hb ht
  rw [hb.step_eq] at ht
  have heff := blkEffect_of_blkUnit ht
  have hstream : t.stream = b.stream := heff.stream_eq
  obtain ⟨-, ⟨-, rfl⟩ | ⟨rest, -, rfl⟩⟩ := hb
  · exact ⟨hstream, fun a => hinv.sink_changed heff⟩
  · have hrest : State.Inv { s with inbox := rest } := { hinv with }
    exact ⟨hstream, fun a => hrest.sink_changed heff⟩

/-- Settles O49: the refusals while BUSY = 1, and each turn's whole effect while BUSY = 0. -/
theorem hostMayNotDisturbARunningCommand : Obligations.HostMayNotDisturbARunningCommand := by
  intro s b x v
  refine ⟨?stream, ?owned, ?sinkWrite, ?sinkRead⟩
  case stream =>
    intro h
    rw [h.step_eq]
    obtain ⟨rest, -, rfl⟩ := h
    refine ⟨fun hp hin ⟨u, hu, hne⟩ => streamWrite_refused (s := { s with inbox := rest }) hp hin hu hne,
      fun hp => ⟨_, streamWrite_idle (s := { s with inbox := rest }) hp x v, fun k => ?_⟩⟩
    simp only [Memory.read_write, @eq_comm _ k]
  case owned =>
    intro h hp hlo hhi
    have howned : sinkOwned s x = true := sinkOwned_iff.2 ⟨hp, hlo, hhi⟩
    obtain h | h := h <;> rw [h.step_eq] <;> obtain ⟨rest, -, rfl⟩ := h
    · exact sinkWrite_refused (s := { s with inbox := rest }) howned v
    · exact sinkRead_refused (s := { s with inbox := rest }) howned
  case sinkWrite =>
    intro h hp
    rw [h.step_eq]
    obtain ⟨rest, -, rfl⟩ := h
    refine ⟨_, sinkWrite_idle (s := { s with inbox := rest }) hp x v, fun k => ?_⟩
    simp only [Memory.read_write, @eq_comm _ k]
  case sinkRead =>
    intro h hp
    rw [h.step_eq]
    obtain ⟨rest, -, rfl⟩ := h
    refine ⟨_, sinkRead_idle (s := { s with inbox := rest }) hp x, fun u hu => ?_⟩
    have hlt := u.isLt
    simp only [hu, Option.getD_some, BitVec.toNat_setWidth]
    omega

end Sys2Proof.Claims

/-! PROOFS. The encoding family (30_encoding.md), its first layer: what each unit's decoder answers on enough bytes, on
too few, and which bytes it has read when it answers. -/

namespace Sys2Proof

/-! ## Opcodes -/

section Operands

variable {t : Byte}

theorem decode_rgb (h : dispatch t = .rgb) (r g b : Byte) (rest : List Byte) :
    decode (.unit .opcode (t :: r :: g :: b :: rest)) = .ok (.rgb r g b, rest) := by
  simp only [decode, decodeOpcode, decodeOperands, h]

theorem decode_rgba (h : dispatch t = .rgba) (r g b a : Byte) (rest : List Byte) :
    decode (.unit .opcode (t :: r :: g :: b :: a :: rest)) = .ok (.rgba r g b a, rest) := by
  simp only [decode, decodeOpcode, decodeOperands, h]

theorem decode_index (h : dispatch t = .index) (rest : List Byte) :
    decode (.unit .opcode (t :: rest)) = .ok (.index (t.extractLsb' 0 6), rest) := by
  simp only [decode, decodeOpcode, decodeOperands, h]

theorem decode_diff (h : dispatch t = .diff) (rest : List Byte) :
    decode (.unit .opcode (t :: rest)) =
      .ok (.diff (t.extractLsb' 4 2) (t.extractLsb' 2 2) (t.extractLsb' 0 2), rest) := by
  simp only [decode, decodeOpcode, decodeOperands, h]

theorem decode_luma (h : dispatch t = .luma) (b2 : Byte) (rest : List Byte) :
    decode (.unit .opcode (t :: b2 :: rest)) =
      .ok (.luma (t.extractLsb' 0 6) (b2.extractLsb' 4 4) (b2.extractLsb' 0 4), rest) := by
  simp only [decode, decodeOpcode, decodeOperands, h]

theorem decode_run (h : dispatch t = .run) (rest : List Byte) :
    decode (.unit .opcode (t :: rest)) = .ok (.run (t.extractLsb' 0 6), rest) := by
  simp only [decode, decodeOpcode, decodeOperands, h]

end Operands

/-- The bytes an opcode was decoded from are its encoding and what is left over. -/
theorem encode_of_decodeOpcode {bs rest : List Byte} {i : Instr} (h : decodeOpcode bs = .ok (i, rest)) :
    ∃ used, encode i = .unit .opcode used ∧ used ++ rest = bs := by
  rcases bs with _ | ⟨t, bs⟩
  · cases h
  obtain ⟨hindex, hdiff, hluma, hrun, -⟩ := tag_back t
  obtain ⟨-, -, -, -, hrgb, hrgba⟩ := dispatch_ranges t
  simp only [decodeOpcode, decodeOperands] at h
  split at h <;> cases h
  case h_1 e =>
    have ht : t = 0xFE#8 := BitVec.eq_of_toNat_eq (hrgb.1 e)
    exact ⟨_, rfl, by rw [ht]; rfl⟩
  case h_2 e =>
    have ht : t = 0xFF#8 := BitVec.eq_of_toNat_eq (hrgba.1 e)
    exact ⟨_, rfl, by rw [ht]; rfl⟩
  case h_3 e => exact ⟨_, rfl, by rw [hindex e]; rfl⟩
  case h_4 e => exact ⟨_, rfl, by rw [hdiff e]; rfl⟩
  case h_5 b2 e =>
    obtain ⟨-, -, -, -, hb2⟩ := tag_back b2
    exact ⟨_, rfl, by rw [hluma e, hb2]; rfl⟩
  case h_6 e => exact ⟨_, rfl, by rw [hrun e]; rfl⟩

/-- A tag without all its operand bytes (R113). -/
theorem decodeOpcode_operandMissing {t : Byte} {bs : List Byte} (h : bs.length + 1 < (dispatch t).length) :
    decodeOpcode (t :: bs) = .error .operandMissing := by
  simp only [decodeOpcode, decodeOperands]
  split
  case h_7 => rfl
  all_goals
    rename_i e
    rw [e] at h
    simp only [Opcode.length, List.length_cons] at h
    omega

/-! ## The header and the footer -/

/-- The bytes a header was decoded from are its encoding and what is left over. -/
theorem encode_of_decodeHeader {bs rest : List Byte} {i : Instr} (h : decodeHeader bs = .ok (i, rest)) :
    ∃ used, encode i = .unit .header used ∧ used ++ rest = bs := by
  unfold decodeHeader at h
  split at h <;> cases h
  exact ⟨_, rfl, by simp [wordBytes, wordByte_be32]⟩

/-- The bytes a footer was decoded from are its encoding and what is left over. -/
theorem encode_of_decodeFooter {bs rest : List Byte} {i : Instr} (h : decodeFooter bs = .ok (i, rest)) :
    ∃ used, encode i = .unit .footer used ∧ used ++ rest = bs := by
  unfold decodeFooter at h
  split at h <;> cases h
  exact ⟨_, rfl, by simp [markerBytes, markerByte_be64]⟩

theorem decodeHeader_short {bs : List Byte} (h : bs.length < 14) :
    decodeHeader bs = .error .headerShort := by
  unfold decodeHeader
  split
  · simp only [List.length_cons] at h
    omega
  · rfl

theorem decodeFooter_short {bs : List Byte} (h : bs.length < 8) :
    decodeFooter bs = .error .footerShort := by
  unfold decodeFooter
  split
  · simp only [List.length_cons] at h
    omega
  · rfl

/-- The end marker's bytes, and only they, make the number 1 (R73). -/
theorem be64_eq_one_iff (a b c d e f g h : Byte) :
    be64 a b c d e f g h = 1 ↔ a = 0 ∧ b = 0 ∧ c = 0 ∧ d = 0 ∧ e = 0 ∧ f = 0 ∧ g = 0 ∧ h = 1 := by
  constructor
  · intro hm
    have hbytes := markerByte_be64 a b c d e f g h
    rw [hm] at hbytes
    obtain ⟨rfl, rfl, rfl, rfl, rfl, rfl, rfl, rfl⟩ := hbytes
    decide
  · rintro ⟨rfl, rfl, rfl, rfl, rfl, rfl, rfl, rfl⟩
    rfl

/-! ## HOST's writes -/

/-- No command bits, no command (R28). -/
theorem decodeWrite_noCommand {v : Word} (h : v.toNat % 4 = 0) : decodeWrite 0x00 v = .error .noCommand := by
  have hbits : v.extractLsb' 0 2 = 0#2 := BitVec.eq_of_toNat_eq (by simpa [BitVec.extractLsb'_toNat] using h)
  simp [decodeWrite, hbits]

/-- A STATUS write without bit 1 acknowledges nothing (R93). -/
theorem decodeWrite_noAcknowledge {v : Word} (h : v.toNat / 2 % 2 = 0) :
    decodeWrite 0x04 v = .error .noAcknowledge := by
  have hbit : v.getLsbD 1 = false := Machine.getLsbD_of_toNat h
  rw [decodeWrite, if_neg (by decide), if_pos rfl, hbit]
  rfl

end Sys2Proof

/-! PROOFS. The encoding family, its second layer: the assembler's fields and guards (R86, R87), and that every
instruction answers a next state. -/

namespace Sys2Proof.Machine

/-- An operand whose biased value fits the field is kept, the bias added (R82). -/
theorem asField_toNat {w : Nat} {bias x : Int} (h0 : 0 ≤ x + bias) (h1 : x + bias < 2 ^ w) :
    ((asField w bias x).toNat : Int) = x + bias := by
  have hmod : (x + bias) % ((2 ^ w : Nat) : Int) = x + bias := Int.emod_eq_of_lt h0 (by exact_mod_cast h1)
  rw [asField, BitVec.toNat_ofInt, hmod, Int.toNat_of_nonneg h0]

/-- A field without a bias. -/
theorem asField_zero_toNat {w : Nat} {x : Int} (h0 : 0 ≤ x) (h1 : x < 2 ^ w) :
    ((asField w 0 x).toNat : Int) = x := by
  rw [asField_toNat] <;> simp only [add_zero, h0, h1]

/-- Reading the field takes the bias off again (R82). -/
theorem excess_asField {w : Nat} {bias x : Int} (h0 : 0 ≤ x + bias) (h1 : x + bias < 2 ^ w) :
    excess (asField w bias x) bias = x := by
  rw [excess, asField_toNat h0 h1]
  omega

theorem inRange_iff {lo hi x : Int} : inRange lo hi x = true ↔ lo ≤ x ∧ x ≤ hi := decide_eq_true_iff

/-- An item guarded by the range of its operands assembles exactly when they are in range. -/
theorem assembles_iff_inRange {item : AsmItem} {guard : Bool} {bs : List Byte} {InRange Assembled : Prop}
    (he : assembleItem item = if guard then some bs else none) (hg : guard = true ↔ InRange)
    (ha : InRange → assembleItem item = some bs → Assembled) :
    (InRange → Assembled) ∧ (¬InRange → assembleItem item = none) :=
  ⟨fun h => ha h (he.trans (if_pos (hg.2 h))), fun h => he.trans (if_neg (mt hg.1 h))⟩

/-- The fields of RUNX's full runs (R87). -/
def runxFull (n : Nat) : List (BitVec 6) := List.replicate (n / 62) 61#6

/-- The field of RUNX's last run, if the full runs leave a rest (R87). -/
def runxLast (n : Nat) : List (BitVec 6) := if n % 62 = 0 then [] else [BitVec.ofNat 6 (n % 62 - 1)]

theorem runLength_ofNat {k : Nat} (h0 : 0 < k) (h62 : k < 62) : runLength (BitVec.ofNat 6 (k - 1)) = k := by
  rw [runLength, BitVec.toNat_ofNat]
  omega

theorem runxFull_runLength {n : Nat} {f : BitVec 6} (hf : f ∈ runxFull n) : runLength f = 62 := by
  rw [List.eq_of_mem_replicate hf]
  rfl

theorem runxLast_map_runLength (n : Nat) :
    (runxLast n).map runLength = if n % 62 = 0 then [] else [n % 62] := by
  unfold runxLast
  split
  · rfl
  · rw [List.map_singleton, runLength_ofNat (by omega) (by omega)]

/-- No run of RUNX is longer than 62, so no field is RGB's or RGBA's (R80). -/
theorem runx_toNat_lt {n : Nat} {f : BitVec 6} (hf : f ∈ runxFull n ++ runxLast n) : f.toNat < 62 := by
  have hlen : runLength f ≤ 62 := by
    obtain hf | hf := List.mem_append.1 hf
    · exact (runxFull_runLength hf).le
    · have hmem := List.mem_map_of_mem (f := runLength) hf
      rw [runxLast_map_runLength] at hmem
      split at hmem
      · cases hmem
      · rw [List.mem_singleton.1 hmem]
        omega
  rw [runLength] at hlen
  omega

/-- RUNX as the runs of its fields (R87). -/
theorem assembleItem_runx {n : Nat} (h : 1 ≤ n) :
    assembleItem (.runx n) = some ((runxFull n ++ runxLast n).map fun f => 3#2 ++ f) := by
  have hn : (1 : Int) ≤ n := by exact_mod_cast h
  simp only [assembleItem, if_pos hn, Int.toNat_natCast, runxFull, runxLast, List.map_append,
    List.map_replicate]
  split <;> rfl

/-- Full runs and the rest make n (R87). -/
theorem runx_runLength_sum (n : Nat) : ((runxFull n ++ runxLast n).map runLength).sum = n := by
  have hfull : ((runxFull n).map runLength).sum = n / 62 * 62 := by
    simp only [runxFull, List.map_replicate, List.sum_replicate]
    rfl
  rw [List.map_append, List.sum_append, hfull, runxLast_map_runLength]
  split <;> simp only [List.sum_nil, List.sum_singleton] <;> omega

/-- Bytes in range are given as they are (R86). -/
theorem map_asField_toNat {vs : List Int} (h : ∀ v ∈ vs, 0 ≤ v ∧ v ≤ 255) :
    (vs.map (asField 8 0)).map (fun x => (x.toNat : Int)) = vs := by
  rw [List.map_map]
  refine (List.map_congr_left fun v hv => ?_).trans vs.map_id
  exact asField_zero_toNat (h v hv).1 (by have := (h v hv).2; omega)

end Sys2Proof.Machine

namespace Sys2Proof.Claims

open Sys2Proof.Machine

/-- Settles O1: each tag selects its opcode and gives its fields back, and each word is its bytes put
together again. -/
theorem decodeOfEncodeGivesTheInstruction : Obligations.DecodeOfEncodeGivesTheInstruction := by
  intro i hrun
  cases i with
  | rgb r g b => exact decode_rgb dispatch_rgb r g b []
  | rgba r g b a => exact decode_rgba dispatch_rgba r g b a []
  | index k =>
    obtain ⟨ht, hk⟩ := index_tag k
    rw [encode, decode_index ht, hk]
  | diff rr gg bb =>
    obtain ⟨ht, hr, hg, hb⟩ := diff_tag rr gg bb
    rw [encode, decode_diff ht, hr, hg, hb]
  | luma gg rr bb =>
    obtain ⟨ht, hg⟩ := luma_tag gg
    obtain ⟨hr, hb⟩ := luma_operand rr bb
    rw [encode, decode_luma ht, hg, hr, hb]
  | run n =>
    obtain ⟨ht, hn⟩ := run_tag n
    rw [encode, decode_run (ht (hrun n rfl)), hn]
  | header => simp [encode, decode, decodeHeader, wordBytes, be32_wordByte]
  | footer => simp [encode, decode, decodeFooter, markerBytes, be64_markerByte]
  | cmdSniff ie | cmdDecode ie | cmdNoneBoth ie =>
    cases ie <;> rfl
  | ackDone => rfl

/-- Settles O2, unit by unit. -/
theorem encodeOfDecodeGivesTheBytes : Obligations.EncodeOfDecodeGivesTheBytes := by
  intro u bs i rest h
  cases u with
  | header => exact encode_of_decodeHeader h
  | opcode => exact encode_of_decodeOpcode h
  | footer => exact encode_of_decodeFooter h

/-- Settles O3: a tag lies in the range of the opcode it selects, so one clause speaks of it, and the
others of no such tag. -/
theorem tagSelectsTheOpcode : Obligations.TagSelectsTheOpcode := by
  intro t b1 b2 b3 b4 rest
  obtain ⟨hindex, hdiff, hluma, hrun, hrgb, hrgba⟩ := dispatch_ranges t
  obtain ⟨hk, hr, hg, hb, -⟩ := byte_fields t
  obtain ⟨-, -, -, -, hhi, hlo⟩ := byte_fields b1
  cases hd : dispatch t with
  | index =>
    have ht := hindex.1 hd
    refine ⟨_, _, decode_index hd _, fun _ => ⟨_, rfl, ?_, rfl⟩, ?_, ?_, ?_, ?_, ?_⟩ <;> omega
  | diff =>
    have ht := hdiff.1 hd
    refine ⟨_, _, decode_diff hd _, ?_, fun _ _ => ⟨_, _, _, rfl, ?r, ?g, ?b, rfl⟩, ?_, ?_, ?_, ?_⟩
    case r | g | b => rw [excess]; omega
    all_goals omega
  | luma =>
    have ht := hluma.1 hd
    refine ⟨_, _, decode_luma hd _ _, ?_, ?_, fun _ _ => ⟨_, _, _, rfl, ?g, hhi, hlo, rfl⟩, ?_, ?_, ?_⟩
    case g => rw [excess]; omega
    all_goals omega
  | run =>
    have ht := hrun.1 hd
    refine ⟨_, _, decode_run hd _, ?_, ?_, ?_, fun _ _ => ⟨_, rfl, ?length, ?bound, rfl⟩, ?_, ?_⟩
    case length | bound => rw [runLength]; omega
    all_goals omega
  | rgb =>
    have ht := hrgb.1 hd
    refine ⟨_, _, decode_rgb hd _ _ _ _, ?_, ?_, ?_, ?_, fun _ => ⟨rfl, rfl⟩, ?_⟩ <;> omega
  | rgba =>
    have ht := hrgba.1 hd
    refine ⟨_, _, decode_rgba hd _ _ _ _ _, ?_, ?_, ?_, ?_, ?_, fun _ => ⟨rfl, rfl⟩⟩ <;> omega

/-- Settles O4: each field is the big-endian number of its bytes. -/
theorem headerAndFooterFieldsAreBigEndian : Obligations.HeaderAndFooterFieldsAreBigEndian := by
  refine ⟨?header, ?footer⟩
  case header =>
    intros
    exact ⟨_, _, _, rfl, be32_toNat .., be32_toNat .., be32_toNat ..⟩
  case footer =>
    intros
    exact ⟨_, rfl, be64_toNat .., be64_eq_one_iff ..⟩

/-- Settles O6: each decoder rejects its own shortage, and a HOST write is a command only by its bits. -/
theorem whatIsNoInstructionIsRejectedByName : Obligations.WhatIsNoInstructionIsRejectedByName := by
  refine ⟨fun _ => decodeHeader_short, fun _ => decodeFooter_short, rfl,
    fun _ _ => decodeOpcode_operandMissing, ?ctrl, ?status, ?others⟩
  case ctrl => exact fun v h => congrArg (Except.map _) (decodeWrite_noCommand h)
  case status => exact fun v h => congrArg (Except.map _) (decodeWrite_noAcknowledge h)
  case others =>
    intro off v h0 h4
    simp [decode, decodeWrite, h0, h4, Except.map]

/-- Settles O56: the full runs and the last run, each a RUN because no run is longer than 62. -/
theorem runxLengthsSumToN : Obligations.RunxLengthsSumToN := by
  intro n hn
  refine ⟨runxFull n, runxLast n, assembleItem_runx hn, fun f hf => ?_, List.length_replicate ..,
    fun _ => runxFull_runLength, runxLast_map_runLength n, runx_runLength_sum n⟩
  refine decodeOfEncodeGivesTheInstruction (.run f) fun g hg => ?_
  cases hg
  exact runx_toNat_lt hf

/-- Settles O57: in range, an item's bytes are its instruction's encoding, which decodes to it, and each
field holds its operand; out of range, the item's guard refuses it. -/
theorem assemblerRefusesOperandsOutOfRange : Obligations.AssemblerRefusesOperandsOutOfRange := by
  refine ⟨?header, ?rgb, ?rgba, ?index, ?diff, ?luma, ?run, rfl, ?bytes⟩
  case header =>
    intro w h c k
    refine assembles_iff_inRange rfl ?_ fun hr ho =>
      ⟨_, _, _, _, _, ho, decodeOfEncodeGivesTheInstruction (.header ..) nofun, ?_, ?_, ?_, ?_⟩
    · simp only [Bool.and_eq_true, inRange_iff]
      omega
    all_goals exact asField_zero_toNat (by omega) (by omega)
  case rgb =>
    intro r g b
    refine assembles_iff_inRange rfl ?_ fun hr ho =>
      ⟨_, _, _, _, ho, decodeOfEncodeGivesTheInstruction (.rgb ..) nofun, ?_, ?_, ?_⟩
    · simp only [Bool.and_eq_true, inRange_iff]
      omega
    all_goals exact asField_zero_toNat (by omega) (by omega)
  case rgba =>
    intro r g b a
    refine assembles_iff_inRange rfl ?_ fun hr ho =>
      ⟨_, _, _, _, _, ho, decodeOfEncodeGivesTheInstruction (.rgba ..) nofun, ?_, ?_, ?_, ?_⟩
    · simp only [Bool.and_eq_true, inRange_iff]
      omega
    all_goals exact asField_zero_toNat (by omega) (by omega)
  case index =>
    intro k
    refine assembles_iff_inRange rfl inRange_iff fun hr ho =>
      ⟨_, _, ho, decodeOfEncodeGivesTheInstruction (.index _) nofun, ?_⟩
    exact asField_zero_toNat (by omega) (by omega)
  case diff =>
    intro dr dg db
    refine assembles_iff_inRange rfl ?_ fun hr ho =>
      ⟨_, _, _, _, ho, decodeOfEncodeGivesTheInstruction (.diff ..) nofun, ?_, ?_, ?_⟩
    · simp only [Bool.and_eq_true, inRange_iff]
      omega
    all_goals exact excess_asField (by omega) (by omega)
  case luma =>
    intro dg drg dbg
    refine assembles_iff_inRange rfl ?_ fun hr ho =>
      ⟨_, _, _, _, ho, decodeOfEncodeGivesTheInstruction (.luma ..) nofun, ?_, ?_, ?_⟩
    · simp only [Bool.and_eq_true, inRange_iff]
      omega
    all_goals exact excess_asField (by omega) (by omega)
  case run =>
    intro n
    refine assembles_iff_inRange rfl inRange_iff fun hr ho => ?_
    have hf : ((asField 6 (-1) n).toNat : Int) = n + -1 := asField_toNat (by omega) (by omega)
    refine ⟨_, _, ho, decodeOfEncodeGivesTheInstruction (.run _) fun g hg => ?_, ?_⟩
    · cases hg
      omega
    · rw [runLength]
      omega
  case bytes =>
    intro vs
    refine assembles_iff_inRange rfl ?_ fun hr ho => ⟨_, ho, map_asField_toNat hr⟩
    simp only [List.all_eq_true, inRange_iff]

/-- Settles O5, word by word. -/
theorem sampleWordsDecode : Obligations.SampleWordsDecode :=
  ⟨rfl, rfl, rfl, rfl, rfl, rfl, rfl, rfl, rfl, rfl, rfl⟩

/-- Settles O43: all that the header and the footer can do are next states, and the other instructions
have one answer. -/
theorem noInstructionStopsTheMachine : Obligations.NoInstructionStopsTheMachine := by
  intro i s
  cases i with
  | header m w h c k =>
    obtain ⟨-, e⟩ | ⟨-, -, e⟩ | ⟨-, -, -, e⟩ | ⟨-, -, -, -, e⟩ | ⟨-, -, -, -, e⟩ :=
      execHeader_cases m w h c k s <;> exact ⟨_, e⟩
  | footer m =>
    obtain ⟨-, e⟩ | ⟨j, -, -, e⟩ | ⟨-, -, e⟩ := execFooter_cases m s <;> exact ⟨_, e⟩
  | rgb | rgba | index | diff | luma | run | cmdSniff | cmdDecode | cmdNoneBoth | ackDone => exact ⟨_, rfl⟩

end Sys2Proof.Claims

/-! PROOFS. HOST's commands (40_host_commands.md): which writes they are, what each of them starts, that every CTRL
write sets IE, and when a configuration register takes its value. -/

namespace Sys2Proof

/-- The command bits of a CTRL value, from its number (R28). -/
theorem commandBits_eq {v : Word} {c : BitVec 2} (h : v.toNat % 4 = c.toNat) : v.extractLsb' 0 2 = c :=
  BitVec.eq_of_toNat_eq (by simpa [BitVec.extractLsb'_toNat] using h)

/-- A CTRL write with bits 1:0 = 01 is CMD_SNIFF (R88). -/
theorem decode_cmdSniff {v : Word} (h : v.toNat % 4 = 1) :
    decode (.csrWrite 0x00 v) = .ok (.cmdSniff (v.getLsbD 2), []) := by
  have hbits : v.extractLsb' 0 2 = 1#2 := commandBits_eq h
  simp [decode, decodeWrite, hbits, Except.map]

/-- A CTRL write with bits 1:0 = 10 is CMD_DECODE (R89). -/
theorem decode_cmdDecode {v : Word} (h : v.toNat % 4 = 2) :
    decode (.csrWrite 0x00 v) = .ok (.cmdDecode (v.getLsbD 2), []) := by
  have hbits : v.extractLsb' 0 2 = 2#2 := commandBits_eq h
  simp [decode, decodeWrite, hbits, Except.map]

/-- A CTRL write with both command bits is CMD_NONE_BOTH (R90). -/
theorem decode_cmdNoneBoth {v : Word} (h : v.toNat % 4 = 3) :
    decode (.csrWrite 0x00 v) = .ok (.cmdNoneBoth (v.getLsbD 2), []) := by
  have hbits : v.extractLsb' 0 2 = 3#2 := commandBits_eq h
  simp [decode, decodeWrite, hbits, Except.map]

/-- A STATUS write with bit 1 set is ACK_DONE (R93). -/
theorem decode_ackDone {v : Word} (h : v.toNat / 2 % 2 = 1) :
    decode (.csrWrite 0x04 v) = .ok (.ackDone, []) := by
  have hbit : v.getLsbD 1 = true := Machine.getLsbD_of_toNat h
  simp [decode, decodeWrite, hbit, Except.map]

end Sys2Proof

namespace Sys2Proof.Machine

/-! ## CTRL writes -/

/-- A command's start keeps IE, whether it is taken (R88, R89) or dropped (R91). -/
@[simp] theorem startSniff_ie (s : State) : (startSniff s).ie = s.ie := by
  unfold startSniff
  split <;> rfl

@[simp] theorem startDecode_ie (s : State) : (startDecode s).ie = s.ie := by
  unfold startDecode
  split <;> rfl

/-- A CTRL write without command bits changes IE alone (R28, R92). -/
theorem csrWrite_ctrl_noCommand {v : Word} (h : v.toNat % 4 = 0) (s : State) :
    csrWrite 0x00 v s = .next (setIe (v.getLsbD 2) s) := by
  simp only [csrWrite, decode, decodeWrite_noCommand h]
  rfl

/-- Whatever a CTRL write starts, IE takes bit 2 of the value (R92). -/
theorem csrWrite_ctrl_ie (v : Word) (s : State) :
    ∃ t, csrWrite 0x00 v s = .next t ∧ t.ie = v.getLsbD 2 := by
  have hbits : v.toNat % 4 = 0 ∨ v.toNat % 4 = 1 ∨ v.toNat % 4 = 2 ∨ v.toNat % 4 = 3 := by omega
  obtain h | h | h | h := hbits
  · exact ⟨_, csrWrite_ctrl_noCommand h s, rfl⟩
  · exact ⟨_, Claims.csrWrite_of_decode (decode_cmdSniff h) s, startSniff_ie _⟩
  · exact ⟨_, Claims.csrWrite_of_decode (decode_cmdDecode h) s, startDecode_ie _⟩
  · exact ⟨_, Claims.csrWrite_of_decode (decode_cmdNoneBoth h) s, rfl⟩

/-! ## Configuration registers -/

/-- An update that waits for BUSY = 0 (R94), by PHASE. -/
theorem whileIdle_eq (s t : State) : whileIdle s t = if s.phase = .idle then t else s := by
  by_cases hp : s.phase = .idle <;> simp [whileIdle, State.busy, hp]

/-- OUT_BASE holds the written value with bits 1:0 cleared (R32). -/
theorem outBase_of_write_toNat (v : Word) : (v.extractLsb' 2 30 ++ 0#2).toNat = v.toNat / 4 * 4 := by
  have := v.isLt
  simp only [append_toNat, BitVec.extractLsb'_toNat, Nat.shiftRight_eq_div_pow, BitVec.toNat_ofNat]
  omega

end Sys2Proof.Machine

namespace Sys2Proof.Claims

open Sys2Proof.Machine

/-- What a CTRL write that starts nothing leaves as it was: all but IE (R90, R91, R92). -/
theorem setIe_frame (ie : Bool) (s : State) :
    SameStatus s (setIe ie s) ∧ SameHeader s (setIe ie s) ∧ SameDatapath s (setIe ie s) ∧
    SamePlatform s (setIe ie s) ∧ SameSink s (setIe ie s) :=
  ⟨⟨rfl, rfl, rfl, rfl, rfl⟩, ⟨rfl, rfl, rfl, rfl, rfl⟩, ⟨rfl, rfl, rfl, rfl⟩,
    ⟨rfl, rfl, rfl, rfl, rfl, rfl, rfl⟩, fun _ => rfl, rfl⟩

/-- A write to a register that waits for BUSY = 0, as a step (R94). -/
theorem HostMoves.step_whileIdle {s b u : State} {off : Nat} {v : Word}
    (h : HostMoves s (.csrWrite .word (s.csrBase + off) v) b) (hr : s.rst = false) (hoff : off < 64)
    (h4 : off % 4 = 0) (hw : csrWrite off v b = .next (whileIdle b u)) :
    step s = .next (if s.phase = .idle then u else b) := by
  rw [h.step_csrWrite hr hoff h4, hw, whileIdle_eq]
  obtain ⟨rest, -, rfl⟩ := h
  rfl

/-- Settles O25: the start is taken while PHASE is IDLE and dropped otherwise, after IE is set. -/
theorem cmdSniffStartsASniffWhenIdle : Obligations.CmdSniffStartsASniffWhenIdle := by
  refine ⟨fun _ => decode_cmdSniff, fun s ie => ?_⟩
  by_cases hp : s.phase = .idle
  · refine ⟨_, congrArg Host.Outcome.next (startSniff_idle (s := setIe ie s) hp), rfl, fun _ => ?started,
      fun h => absurd hp h, rfl, rfl, rfl, ?header, ?datapath, ?platform, ?sink⟩
    case started => exact ⟨rfl, rfl, rfl, rfl, rfl, rfl⟩
    case header => exact ⟨rfl, rfl, rfl, rfl, rfl⟩
    case datapath => exact ⟨rfl, rfl, rfl, rfl⟩
    case platform => exact ⟨rfl, rfl, rfl, rfl, rfl, rfl, rfl⟩
    case sink => exact ⟨fun _ => rfl, rfl⟩
  · obtain ⟨hstatus, hheader, hdatapath, hplatform, hsink⟩ := setIe_frame ie s
    exact ⟨_, congrArg Host.Outcome.next (startSniff_busy (s := setIe ie s) hp), rfl, fun h => absurd h hp,
      fun _ => ⟨rfl, hstatus⟩, rfl, rfl, rfl, hheader, hdatapath, hplatform, hsink⟩

/-- Settles O26: the start is taken while PHASE is IDLE and dropped otherwise, after IE is set. -/
theorem cmdDecodeStartsADecodeWhenIdle : Obligations.CmdDecodeStartsADecodeWhenIdle := by
  refine ⟨fun _ => decode_cmdDecode, fun s ie => ?_⟩
  by_cases hp : s.phase = .idle
  · refine ⟨_, congrArg Host.Outcome.next (startDecode_idle (s := setIe ie s) hp), rfl, fun _ => ?started,
      fun h => absurd hp h, rfl, rfl, rfl, ?platform, fun _ => rfl⟩
    case started => exact ⟨rfl, rfl, rfl, rfl, rfl, rfl, rfl, rfl, rfl, rfl, rfl, rfl, rfl, rfl, rfl⟩
    case platform => exact ⟨rfl, rfl, rfl, rfl, rfl, rfl, rfl⟩
  · obtain ⟨hstatus, hheader, hdatapath, hplatform, hsink⟩ := setIe_frame ie s
    exact ⟨_, congrArg Host.Outcome.next (startDecode_busy (s := setIe ie s) hp), rfl, fun h => absurd h hp,
      fun _ => ⟨rfl, hstatus, hheader, hdatapath⟩, rfl, rfl, rfl, hplatform, hsink.sink⟩

/-- Settles O27: the write sets IE, which leaves all else as it was. -/
theorem cmdNoneBothStartsNothing : Obligations.CmdNoneBothStartsNothing := by
  refine ⟨fun _ => decode_cmdNoneBoth, fun s ie => ?_⟩
  obtain ⟨hstatus, hheader, hdatapath, hplatform, hsink⟩ := setIe_frame ie s
  exact ⟨_, rfl, rfl, rfl, hstatus, rfl, rfl, rfl, hheader, hdatapath, hplatform, hsink⟩

/-- Settles O28: the acknowledgement writes DONE alone, and irq is DONE and IE. -/
theorem ackDoneClearsDoneOnly : Obligations.AckDoneClearsDoneOnly := by
  refine fun s v => ⟨decode_ackDone, acknowledge s, rfl, rfl, rfl, rfl, rfl, rfl, rfl, rfl,
    ?params, ?header, ?datapath, ?platform, ?sink⟩
  case params => exact ⟨rfl, rfl, rfl, rfl⟩
  case header => exact ⟨rfl, rfl, rfl, rfl, rfl⟩
  case datapath => exact ⟨rfl, rfl, rfl, rfl⟩
  case platform => exact ⟨rfl, rfl, rfl, rfl, rfl, rfl, rfl⟩
  case sink => exact ⟨fun _ => rfl, rfl⟩

/-- Settles O29: the step is the write to CTRL, whose four command codes all set IE; irq is DONE and IE. -/
theorem everyCtrlWriteSetsIe : Obligations.EveryCtrlWriteSetsIe := by
  intro s b v hr h
  have hstep : step s = csrWrite 0x00 v b := h.step_csrWrite (off := 0x00) hr (by decide) (by decide)
  constructor
  · obtain ⟨t, ht, hie⟩ := csrWrite_ctrl_ie v b
    exact ⟨t, hstep.trans ht, hie, by rw [State.irq, hie]⟩
  · intro h0
    exact hstep.trans (csrWrite_ctrl_noCommand h0 b)

/-- Settles O30: each of the three writes waits for BUSY = 0. -/
theorem configurationWritesAreTakenOnlyWhileIdle :
    Obligations.ConfigurationWritesAreTakenOnlyWhileIdle := by
  intro s b v hr
  refine ⟨fun h => ?inLen, fun h => ⟨v.extractLsb' 2 30, outBase_of_write_toNat v, ?outBase⟩,
    fun h => ?outCap⟩
  all_goals exact h.step_whileIdle hr (by decide) (by decide) rfl

end Sys2Proof.Claims

/-! PROOFS. The sniffer family (41_format_sniffer.md): the sniff that is due, its comparison with the magic, and why it
agrees with the header unit's magic check. -/

namespace Sys2Proof

/-- Words are equal when their bytes are. -/
theorem wordBytes_inj {v w : Word} : wordBytes v = wordBytes w ↔ v = w := by
  refine ⟨fun h => ?_, congrArg wordBytes⟩
  simp only [wordBytes, List.cons.injEq, and_true] at h
  obtain ⟨h0, h1, h2, h3⟩ := h
  rw [← be32_wordByte v, ← be32_wordByte w, h0, h1, h2, h3]

/-- The magic's bytes are the characters "qoif" (R72). -/
theorem wordBytes_magic : wordBytes Config.magic = [0x71, 0x6F, 0x69, 0x66] := by decide

/-- Fourteen bytes are a header that begins with its magic as read (R70, R102). -/
theorem decodeHeader_of_length {bs : List Byte} (hn : bs.length = 14) :
    ∃ m w h c k, decodeHeader bs = .ok (.header m w h c k, []) ∧
      bs = wordBytes m ++ (wordBytes w ++ (wordBytes h ++ [c, k])) := by
  obtain ⟨m, w, h, c, k, hd⟩ := decodeHeader_isOk hn
  obtain ⟨used, he, hused⟩ := encode_of_decodeHeader hd
  cases he
  exact ⟨m, w, h, c, k, hd, by simp [← hused]⟩

end Sys2Proof

namespace Sys2Proof.Machine

/-- With fewer than four bytes the sniff is due at once, with MATCH = 0 (R99). -/
theorem due_sniff_short {s : State} (hp : s.phase = .sniff) (hl : s.inLen.toNat < 4) :
    due s = .sniff false := by
  simp only [due, hp, dueSniff, if_pos hl]

/-- With its four bytes there the sniff that is due compares them with the magic (R97). -/
theorem due_sniff_of_readBytes {s : State} {bs : List Byte} (hp : s.phase = .sniff)
    (hl : 4 ≤ s.inLen.toNat) (h : readBytes s.stream 0 4 = some bs) :
    due s = .sniff (decide (bs = wordBytes Config.magic)) := by
  simp only [due, hp, dueSniff, if_neg (Nat.not_lt.2 hl), h]

/-- A header that is cut short is due as such (R102). -/
theorem due_header_short {s : State} (hp : s.phase = .header) (hl : s.inLen.toNat < 14) :
    due s = .short 1 := by
  have hshort : s.inLen.toNat < Config.hdrLen := hl
  simp only [due, hp, if_pos hshort]

/-- A sniff that is due sets MATCH and completes (R97). -/
theorem blkUnit_sniff {s : State} {m : Bool} (h : due s = .sniff m) :
    blkUnit s = .next (sniffUnit m s) := by
  simp only [blkUnit, h]

@[simp] theorem sniffUnit_matched (m : Bool) (s : State) : (sniffUnit m s).matched = m := rfl

@[simp] theorem sniffUnit_pos (m : Bool) (s : State) : (sniffUnit m s).pos = s.pos := rfl

/-- With its 14 bytes in S the header unit ends with FormatMismatch exactly when the magic differs (R103). -/
theorem execHeader_formatMismatch_iff (m w h : Word) (c k : Byte) {s : State} (hl : 14 ≤ s.inLen.toNat)
    (herr : s.err = .noError) :
    ∃ t, execHeader m w h c k s = .next t ∧ (t.err = .formatMismatch ↔ m ≠ Config.magic) := by
  obtain ⟨hshort, -⟩ | ⟨-, hm, e⟩ | ⟨-, hm, -, e⟩ | ⟨-, hm, -, -, e⟩ | ⟨-, hm, -, -, e⟩ :=
    execHeader_cases m w h c k s
  · omega
  · exact ⟨_, e, by simp [hm]⟩
  · exact ⟨_, e, by simp [hm]⟩
  · exact ⟨_, e, by simp [hm]⟩
  · exact ⟨_, e, by simp [hm, herr]⟩

end Sys2Proof.Machine

namespace Sys2Proof.Claims

open Sys2Proof.Machine

/-- A raise leaves its result in STATUS and all else as it was (R146, R151). -/
theorem raised_raiseErr (e : ErrKind) (d : BitVec 4) (s : State) : Raised s (raiseErr e d s) e d.toNat :=
  ⟨rfl, rfl, rfl, rfl, rfl, rfl, ⟨rfl, rfl, rfl, rfl⟩, ⟨rfl, rfl, rfl, rfl, rfl⟩,
    ⟨rfl, rfl, rfl, rfl⟩, ⟨rfl, rfl, rfl, rfl, rfl, rfl, rfl⟩, fun _ => rfl, rfl⟩

/-- The sniff completes and leaves all but STATUS as it was (R97, R98). -/
theorem completed_sniffUnit (m : Bool) (s : State) : Completed s (sniffUnit m s) :=
  ⟨rfl, rfl, rfl, rfl, rfl, ⟨rfl, rfl, rfl, rfl⟩, ⟨rfl, rfl, rfl, rfl, rfl⟩, rfl, rfl, rfl,
    ⟨rfl, rfl, rfl, rfl, rfl, rfl, rfl⟩, fun _ => rfl, rfl⟩

/-- A step of BLK at a due sniff. -/
theorem BlkMoves.step_of_due_sniff {s b : State} {m : Bool} (h : BlkMoves s b) (hd : due s = .sniff m) :
    step s = .next (sniffUnit m b) := by
  rw [h.step_eq, blkUnit_sniff (h.due_eq.trans hd)]

/-- A step of BLK at a unit that is cut short. -/
theorem BlkMoves.step_of_due_short {s b : State} {d : BitVec 4} (h : BlkMoves s b) (hd : due s = .short d) :
    step s = .next (raiseErr .truncatedInput d b) := by
  rw [h.step_eq, blkUnit_short (h.due_eq.trans hd)]

/-- The first of the bytes that stand in the stream stand there too. -/
theorem Placed.of_append {s : State} {off : Nat} {bs bs' : List Byte} (h : Placed s off (bs ++ bs')) :
    Placed s off bs := fun k hk => by
  rw [h k (by rw [List.length_append]; omega), List.getElem_append_left hk]

/-- The sniff that is due on four bytes that stand at the start of the stream (R97). -/
theorem Placed.due_sniff {s : State} {bs : List Byte} (h : Placed s 0 bs) (hn : bs.length = 4)
    (hp : s.phase = .sniff) (hl : 4 ≤ s.inLen.toNat) :
    due s = .sniff (decide (bs = wordBytes Config.magic)) :=
  due_sniff_of_readBytes hp hl (hn ▸ readBytes_of_read bs 0 h)

/-- Settles O23: the sniff's result is false below four bytes, else whether the four are the magic's; the
unit then writes STATUS alone. -/
theorem sniffComparesTheMagic : Obligations.SniffComparesTheMagic := by
  intro s b hb hp
  refine ⟨fun hl => ?short, fun m0 m1 m2 m3 hl hplaced => ?four⟩
  case short =>
    exact ⟨_, hb.step_of_due_sniff (due_sniff_short hp hl), completed_sniffUnit _ b, rfl, rfl⟩
  case four =>
    refine ⟨_, hb.step_of_due_sniff (hplaced.due_sniff rfl hp hl), completed_sniffUnit _ b, rfl, ?_⟩
    simp [wordBytes_magic]

/-- Settles O24: on 14 bytes both units compare the same four with the magic, and the header unit compares
only after its length check. -/
theorem sniffAgreesWithTheHeaderUnit : Obligations.SniffAgreesWithTheHeaderUnit := by
  intro s hr hi herr
  have hblk (p : Phase) : BlkMoves { s with phase := p } { s with phase := p } := ⟨hr, .inl ⟨hi, rfl⟩⟩
  refine ⟨fun hl hdr hn hplaced => ?long, fun hl => ?short⟩
  case long =>
    obtain ⟨m, w, h, c, k, hd, rfl⟩ := decodeHeader_of_length hn
    obtain ⟨u, hu, hmismatch⟩ :=
      execHeader_formatMismatch_iff m w h c k (s := { s with phase := .header }) hl herr
    have hmagic : Placed { s with phase := .sniff } 0 (wordBytes m) := Placed.of_append hplaced
    have hsniff := hmagic.due_sniff rfl rfl (Nat.le_trans (by decide) hl)
    have hheader := due_header (s := { s with phase := .header }) rfl hl hplaced hd
    refine ⟨_, u, (hblk _).step_of_due_sniff hsniff,
      ((hblk _).step_of_due_instr hheader).trans hu, ?_⟩
    rw [sniffUnit_matched, decide_eq_true_iff, wordBytes_inj, ne_eq, hmismatch, not_not]
  case short =>
    exact ⟨_, (hblk _).step_of_due_short (due_header_short rfl hl), raised_raiseErr ..⟩

end Sys2Proof.Claims

/-! PROOFS. The header parser family (42_header_parser.md): a header that passes its checks, the order of its errors,
units that are cut short, and that BLK reads neither CHANNELS nor COLORSPACE. -/

namespace Sys2Proof.Machine

/-! ## The header unit -/

/-- A header whose image fits passes every check (R102, R107). -/
theorem execHeader_of_fits {s : State} {w h : Word} (hl : 14 ≤ s.inLen.toNat)
    (hcap : w.toNat * h.toNat ≤ s.outCap.toNat)
    (hfit : s.outBase.toNat + 4 * (w.toNat * h.toNat) ≤ 2 ^ 32) (c k : Byte) :
    execHeader Config.magic w h c k s = .next (initDecode (loadHeader w h c k s)) := by
  have hcases := execHeader_cases Config.magic w h c k s
  simp only [loadHeader_outCap, loadHeader_outBase, loadHeader_total, totalOf_toNat] at hcases
  obtain ⟨hshort, -⟩ | ⟨-, hm, -⟩ | ⟨-, -, hover, -⟩ | ⟨-, -, -, hpast, -⟩ | ⟨-, -, -, -, e⟩ := hcases
  · omega
  · exact absurd rfl hm
  · omega
  · omega
  · exact e

/-- After the initialisation every cache slot is (0, 0, 0, 0) (R108). -/
@[simp] theorem cacheLookup_initDecode (s : State) (j : BitVec 6) :
    cacheLookup (initDecode s) j = Pixel.zero := by
  simp [cacheLookup]

/-! ## Units that are cut short -/

/-- No tag lies in S (R111). -/
theorem due_tag_short {s : State} (hp : s.phase = .ops) (hl : s.inLen.toNat ≤ s.pos.toNat) :
    due s = .short 2 := by
  simp only [due, hp, dueOpcode, if_pos hl]

/-- The tag lies in S, and not all the bytes it asks for do (R113). -/
theorem due_opcode_short {s : State} {tag : Byte} (hp : s.phase = .ops)
    (hin : s.pos.toNat < s.inLen.toNat) (htag : s.stream.read s.pos.toNat = some tag)
    (hl : s.inLen.toNat < s.pos.toNat + (dispatch tag).length) : due s = .short 3 := by
  simp only [due, hp, dueOpcode, if_neg (Nat.not_le.2 hin), htag, if_pos hl]

/-- A footer that is cut short is due as such (R137). -/
theorem due_footer_short {s : State} (hp : s.phase = .footer) (hl : s.inLen.toNat < s.pos.toNat + 8) :
    due s = .short 5 := by
  have hshort : s.inLen.toNat < s.pos.toNat + Config.ftrLen := hl
  simp only [due, hp, if_pos hshort]

/-! ## HDR_INFO -/

/-- The outcome is `t` but for what CHANNELS and COLORSPACE hold (R37). -/
def AnswersButHdrInfo (o : Host.Outcome State Fault Refusal) (t : State) : Prop :=
  ∃ c k, o = .next { t with channels := c, colorspace := k }

/-- The fetch reads neither field. -/
theorem due_withHdrInfo (s : State) (c k : Byte) : due { s with channels := c, colorspace := k } = due s :=
  rfl

theorem opcodeUnit_withHdrInfo (len : Nat) (px : Pixel) (n : Nat) (s : State) (c k : Byte) :
    opcodeUnit len px n { s with channels := c, colorspace := k } =
      { opcodeUnit len px n s with channels := c, colorspace := k } := by
  unfold opcodeUnit
  split_ifs <;> rfl

/-- The header unit overwrites both fields before its allocation check (R104), and keeps them when it
fails sooner. -/
theorem execHeader_withHdrInfo {magic w h : Word} {c' k' : Byte} {s t : State} (c k : Byte)
    (ht : execHeader magic w h c' k' s = .next t) :
    AnswersButHdrInfo (execHeader magic w h c' k' { s with channels := c, colorspace := k }) t := by
  unfold execHeader at ht ⊢
  split_ifs at ht ⊢
  · cases ht; exact ⟨c, k, rfl⟩
  · cases ht; exact ⟨c, k, rfl⟩
  · exact ⟨t.channels, t.colorspace, ht⟩

theorem execFooter_withHdrInfo {marker : BitVec 64} {s t : State} (c k : Byte)
    (ht : execFooter marker s = .next t) :
    AnswersButHdrInfo (execFooter marker { s with channels := c, colorspace := k }) t := by
  unfold execFooter at ht ⊢
  split_ifs at ht ⊢
  · cases ht; exact ⟨c, k, rfl⟩
  · split at ht <;> cases ht <;> exact ⟨c, k, rfl⟩

/-- CMD_SNIFF keeps both fields (R88). -/
theorem startSniff_withHdrInfo (s : State) (c k : Byte) :
    startSniff { s with channels := c, colorspace := k } =
      { startSniff s with channels := c, colorspace := k } := by
  by_cases hp : s.phase = .idle
  · rw [startSniff_idle hp, startSniff_idle (s := { s with channels := c, colorspace := k }) hp]; rfl
  · rw [startSniff_busy hp, startSniff_busy (s := { s with channels := c, colorspace := k }) hp]

/-- CMD_DECODE's start clears both fields (R89); a start that is dropped keeps them (R91). -/
theorem startDecode_withHdrInfo (s : State) (c k : Byte) :
    AnswersButHdrInfo (.next (startDecode { s with channels := c, colorspace := k })) (startDecode s) := by
  by_cases hp : s.phase = .idle
  · rw [startDecode_idle hp, startDecode_idle (s := { s with channels := c, colorspace := k }) hp]
    exact ⟨0, 0, rfl⟩
  · rw [startDecode_busy hp, startDecode_busy (s := { s with channels := c, colorspace := k }) hp]
    exact ⟨c, k, rfl⟩

/-- No instruction reads CHANNELS or COLORSPACE (R37). -/
theorem exec_withHdrInfo {i : Instr} {s t : State} (c k : Byte) (ht : exec i s = .next t) :
    AnswersButHdrInfo (exec i { s with channels := c, colorspace := k }) t := by
  cases i with
  | header magic w h c' k' => exact execHeader_withHdrInfo c k ht
  | footer marker => exact execFooter_withHdrInfo c k ht
  | cmdSniff ie => cases ht; exact ⟨c, k, congrArg _ (startSniff_withHdrInfo (setIe ie s) c k)⟩
  | cmdDecode ie => cases ht; exact startDecode_withHdrInfo (setIe ie s) c k
  | cmdNoneBoth | ackDone => cases ht; exact ⟨c, k, rfl⟩
  | rgb | rgba | index | diff | luma | run =>
    cases ht; exact ⟨c, k, congrArg _ (opcodeUnit_withHdrInfo _ _ _ s c k)⟩

/-- So BLK's unit reads neither (R105). -/
theorem blkUnit_withHdrInfo {s t : State} (c k : Byte) (ht : blkUnit s = .next t) :
    AnswersButHdrInfo (blkUnit { s with channels := c, colorspace := k }) t := by
  unfold blkUnit at ht ⊢
  rw [due_withHdrInfo]
  cases hd : due s <;> simp only [hd] at ht ⊢
  case instr i => exact exec_withHdrInfo c k ht
  all_goals cases ht; exact ⟨c, k, rfl⟩

end Sys2Proof.Machine

namespace Sys2Proof.Claims

open Sys2Proof.Machine

/-- Whether BLK moves does not depend on HDR_INFO. -/
theorem BlkMoves.withHdrInfo {s b : State} (h : BlkMoves s b) (c k : Byte) :
    BlkMoves { s with channels := c, colorspace := k } { b with channels := c, colorspace := k } := by
  obtain ⟨hr, ⟨hi, rfl⟩ | ⟨rest, hi, rfl⟩⟩ := h
  · exact ⟨hr, .inl ⟨hi, rfl⟩⟩
  · exact ⟨hr, .inr ⟨rest, hi, rfl⟩⟩

/-- A step of BLK at a unit that is cut short raises TruncatedInput and changes STATUS alone (R146). -/
theorem BlkMoves.raised_of_due_short {s b : State} {d : BitVec 4} (h : BlkMoves s b)
    (hd : due s = .short d) : ∃ t, step s = .next t ∧ Raised b t .truncatedInput d.toNat :=
  ⟨_, h.step_of_due_short hd, raised_raiseErr ..⟩

/-- Settles O18: the unit answers the initialisation of the loaded header, with TOTAL the exact product. -/
theorem headerLoadsAndInitialises : Obligations.HeaderLoadsAndInitialises := by
  intro s w h c k hl hcap hfit
  refine ⟨_, execHeader_of_fits hl hcap hfit c k, rfl, rfl, rfl, rfl, totalOf_toNat w h,
    cacheLookup_initDecode _, rfl, rfl, rfl, ?phase, ?params, ?status, ?platform, ?sink⟩
  case phase => rw [initDecode_phase, loadHeader_total, totalOf_toNat]
  case params => exact ⟨rfl, rfl, rfl, rfl⟩
  case status => exact ⟨rfl, rfl, rfl, rfl, rfl⟩
  case platform => exact ⟨rfl, rfl, rfl, rfl, rfl, rfl, rfl⟩
  case sink => exact ⟨fun _ => rfl, rfl⟩

/-- Settles O19: the unit's five outcomes come under conditions that exclude each other, and the raise of
each of the four errors leaves all but STATUS as it was. -/
theorem headerErrorsComeInPriority : Obligations.HeaderErrorsComeInPriority := by
  intro s m w h c k
  have hcases := execHeader_cases m w h c k s
  simp only [loadHeader_outCap, loadHeader_outBase, loadHeader_total, totalOf_toNat] at hcases
  obtain ⟨hl, e⟩ | ⟨hl, hm, e⟩ | ⟨hl, hm, hcap, e⟩ | ⟨hl, hm, hcap, hfit, e⟩ |
    ⟨hl, hm, hcap, hfit, e⟩ := hcases
  · exact ⟨_, e, fun _ => raised_raiseErr .., by omega, by omega, by omega⟩
  · exact ⟨_, e, by omega, fun _ _ => raised_raiseErr .., fun _ hm' => absurd hm' hm,
      fun _ hm' => absurd hm' hm⟩
  · exact ⟨_, e, by omega, fun _ hm' => absurd hm hm', fun _ _ _ => raised_raiseErr .., by omega⟩
  · exact ⟨_, e, by omega, fun _ hm' => absurd hm hm', by omega, fun _ _ _ _ => raised_raiseErr ..⟩
  · exact ⟨_, e, by omega, fun _ hm' => absurd hm hm', by omega, by omega⟩

/-- Settles O20: BLK moves from both states, and its unit reads neither field. -/
theorem channelsAndColorspaceChangeNothing : Obligations.ChannelsAndColorspaceChangeNothing := by
  intro s b t c k hb ht
  rw [hb.step_eq] at ht
  rw [(hb.withHdrInfo c k).step_eq]
  exact blkUnit_withHdrInfo c k ht

/-- Settles O39: each unit's length check makes it due as cut short; an opcode cut behind its tag has
operand bytes, as only RGB, RGBA and LUMA do. -/
theorem unitCutShortRaisesTruncatedInput : Obligations.UnitCutShortRaisesTruncatedInput := by
  intro s b hb
  refine ⟨?header, ?tag, ?operands, ?footer⟩
  case header => exact fun hp hl => hb.raised_of_due_short (due_header_short hp hl)
  case tag => exact fun hp hl => hb.raised_of_due_short (due_tag_short hp hl)
  case operands =>
    intro tag hp hin htag hl
    exact ⟨Opcode.one_lt_length (by omega), hb.raised_of_due_short (due_opcode_short hp hin htag hl)⟩
  case footer => exact fun hp hl => hb.raised_of_due_short (due_footer_short hp hl)

end Sys2Proof.Claims

/-! PROOFS. The tag dispatcher family (43_tag_dispatcher.md): an opcode's instruction is its opcode unit, what its raises
and its commit leave, and how many units a command whose reads are answered still takes. -/

namespace Sys2Proof.Machine

/-! ## The cache after a commit -/

/-- A commit fills the slot of its pixel and keeps the other slots (R129). -/
theorem cacheLookup_commit_eq (px : Pixel) (n len : Nat) (s : State) (k : BitVec 6) :
    cacheLookup (commit px n len s) k = if k = pixelHash px then px else cacheLookup s k :=
  cacheStore_get s.cache px k

/-- A pixel that stands in its slot already is stored without a change (R118). -/
theorem cacheLookup_commit_of_stored {px : Pixel} {s : State} (h : cacheLookup s (pixelHash px) = px)
    (n len : Nat) (k : BitVec 6) : cacheLookup (commit px n len s) k = cacheLookup s k := by
  rw [cacheLookup_commit_eq]
  split
  · next hk => rw [hk, h]
  · rfl

/-- An opcode unit that ends with DONE = 0 has committed: every raise sets DONE (R146). -/
theorem opcodeUnit_of_not_done {len n : Nat} {px : Pixel} {s : State}
    (h : (opcodeUnit len px n s).done = false) : opcodeUnit len px n s = commit px n len s := by
  obtain ⟨-, e⟩ | ⟨-, -, e⟩ | ⟨-, -, -, e⟩ | ⟨-, -, -, e⟩ := opcodeUnit_cases len px n s
  · simp [e] at h
  · simp [e] at h
  · simp [e] at h
  · exact e

/-! ## The units a command still takes -/

/-- The most units that the running command can still take when its reads are answered (R120): each opcode
takes at least one byte of S, and the last unit is a raise or the footer. -/
def unitsLeft (s : State) : Nat :=
  match s.phase with
  | .idle => 0
  | .sniff => 1
  | .header => 2 + (s.inLen.toNat - 14)
  | .ops => 1 + (s.inLen.toNat - s.pos.toNat)
  | .footer => 1

theorem unitsLeft_idle {s : State} (h : s.phase = .idle) : unitsLeft s = 0 := by
  simp only [unitsLeft, h]

theorem unitsLeft_header {s : State} (h : s.phase = .header) :
    unitsLeft s = 2 + (s.inLen.toNat - 14) := by
  simp only [unitsLeft, h]

theorem unitsLeft_ops {s : State} (h : s.phase = .ops) :
    unitsLeft s = 1 + (s.inLen.toNat - s.pos.toNat) := by
  simp only [unitsLeft, h]

theorem unitsLeft_footer {s : State} (h : s.phase = .footer) : unitsLeft s = 1 := by
  simp only [unitsLeft, h]

/-- A running command has a unit to take. -/
theorem unitsLeft_pos {s : State} (h : s.phase ≠ .idle) : 0 < unitsLeft s := by
  unfold unitsLeft
  cases hp : s.phase with
  | idle => exact absurd hp h
  | sniff | header | ops | footer => simp

/-- Past its header a command takes at most one unit a byte from POS on, and one more. -/
theorem unitsLeft_le_of_decoding {s : State} (h : s.decoding) :
    unitsLeft s ≤ 1 + (s.inLen.toNat - s.pos.toNat) := by
  obtain hp | hp := h
  · rw [unitsLeft_ops hp]
  · rw [unitsLeft_footer hp]
    exact Nat.le_add_right ..

/-- What one unit of a command whose reads are answered does: it leaves the command fewer units to take, or
ends it with DONE = 1, and changes neither IN_LEN nor what the next unit waits for. -/
structure Advances (s t : State) : Prop where
  rst : t.rst = s.rst
  inbox : t.inbox = s.inbox
  stream : t.stream = s.stream
  inLen : t.inLen = s.inLen
  fewer : unitsLeft t < unitsLeft s
  ended : t.phase = .idle → t.done = true

/-- A raise ends the command (R146). -/
theorem advances_raiseErr {s : State} (hp : s.phase ≠ .idle) (e : ErrKind) (d : BitVec 4) :
    Advances s (raiseErr e d s) :=
  ⟨rfl, rfl, rfl, rfl, unitsLeft_pos hp, fun _ => rfl⟩

/-- So does a completion (R95). -/
theorem advances_complete {s : State} (hp : s.phase ≠ .idle) (m : Bool) (pos : Word) :
    Advances s (complete { s with matched := m, pos := pos }) :=
  ⟨rfl, rfl, rfl, rfl, unitsLeft_pos hp, fun _ => rfl⟩

/-- A decode past its header is not at its end (R30). -/
theorem phase_ne_idle_of_decoding {s : State} (h : s.decoding) : s.phase ≠ .idle := by
  obtain hp | hp := h <;> simp [hp]

/-- A header that passes its checks begins the opcodes, or the footer, at POS = 14 (R108). -/
theorem advances_initDecode {s : State} (hp : s.phase = .header) (w h : Word) (c k : Byte) :
    Advances s (initDecode (loadHeader w h c k s)) := by
  have hdec : (initDecode (loadHeader w h c k s)).decoding := by
    unfold State.decoding
    rw [initDecode_phase]
    split <;> simp
  have hpos : (initDecode (loadHeader w h c k s)).pos.toNat = 14 := rfl
  have hle := unitsLeft_le_of_decoding hdec
  rw [hpos, initDecode_inLen, loadHeader_inLen] at hle
  refine ⟨rfl, rfl, rfl, rfl, ?fewer, fun hi => absurd hi (phase_ne_idle_of_decoding hdec)⟩
  case fewer => rw [unitsLeft_header hp]; omega

/-- A commit takes its bytes off what is left of S, and PHASE stays OPS or becomes FOOTER (R116). -/
theorem advances_commit {s : State} (hp : s.phase = .ops) (px : Pixel) {len : Nat} (n : Nat) (hlen : 1 ≤ len)
    (hpos : s.pos.toNat + len ≤ s.inLen.toNat) : Advances s (commit px n len s) := by
  have hdec : (commit px n len s).decoding := by
    unfold State.decoding
    rw [commit_phase, hp]
    split <;> simp
  have hnext : (commit px n len s).pos.toNat = s.pos.toNat + len := toNat_add_ofNat hpos
  have hle := unitsLeft_le_of_decoding hdec
  rw [hnext, commit_inLen] at hle
  refine ⟨rfl, rfl, rfl, rfl, ?fewer, fun hi => absurd hi (phase_ne_idle_of_decoding hdec)⟩
  case fewer => rw [unitsLeft_ops hp]; omega

/-! ## The three units of a decode -/

theorem advances_of_execHeader {s : State} (hp : s.phase = .header) (m w h : Word) (c k : Byte) :
    ∃ t, execHeader m w h c k s = .next t ∧ Advances s t := by
  have hi : s.phase ≠ .idle := by simp [hp]
  have hload (d : BitVec 4) : Advances s (raiseErr .allocationFailure d (loadHeader w h c k s)) :=
    ⟨rfl, rfl, rfl, rfl, unitsLeft_pos hi, fun _ => rfl⟩
  obtain ⟨-, e⟩ | ⟨-, -, e⟩ | ⟨-, -, -, e⟩ | ⟨-, -, -, -, e⟩ | ⟨-, -, -, -, e⟩ :=
    execHeader_cases m w h c k s
  · exact ⟨_, e, advances_raiseErr hi ..⟩
  · exact ⟨_, e, advances_raiseErr hi ..⟩
  · exact ⟨_, e, hload _⟩
  · exact ⟨_, e, hload _⟩
  · exact ⟨_, e, advances_initDecode hp w h c k⟩

theorem advances_opcodeUnit {s : State} (hp : s.phase = .ops) {len : Nat} (px : Pixel) (n : Nat)
    (hlen : 1 ≤ len) : Advances s (opcodeUnit len px n s) := by
  have hi : s.phase ≠ .idle := by simp [hp]
  obtain ⟨-, e⟩ | ⟨-, -, e⟩ | ⟨-, -, -, e⟩ | ⟨-, hpos, -, e⟩ := opcodeUnit_cases len px n s <;> rw [e]
  · exact advances_raiseErr hi ..
  · exact advances_raiseErr hi ..
  · exact advances_raiseErr hi ..
  · exact advances_commit hp px n hlen hpos

theorem advances_of_execFooter {s : State} (hp : s.phase = .footer) (m : BitVec 64) :
    ∃ t, execFooter m s = .next t ∧ Advances s t := by
  have hi : s.phase ≠ .idle := by simp [hp]
  obtain ⟨-, e⟩ | ⟨j, -, -, e⟩ | ⟨-, -, e⟩ := execFooter_cases m s
  · exact ⟨_, e, advances_raiseErr hi ..⟩
  · exact ⟨_, e, advances_raiseErr hi ..⟩
  · exact ⟨_, e, advances_complete hi s.matched _⟩

end Sys2Proof.Machine

namespace Sys2Proof.Claims

open Sys2Proof.Machine

/-! ## The opcodes as instructions -/

/-- Each of the six opcodes is the opcode unit of its length, some pixel and its emission count (R110, R114). -/
theorem exec_opcode {i : Instr} (h : opcodeLength i ≠ 0) (s : State) :
    ∃ px, exec i s = .next (opcodeUnit (opcodeLength i) px (copies i) s) := by
  cases i with
  | rgb | rgba | index | diff | luma | run => exact ⟨_, rfl⟩
  | header | footer | cmdSniff | cmdDecode | cmdNoneBoth | ackDone => exact absurd rfl h

/-- Settles O13: the unit's four outcomes come under conditions that exclude each other, and a raise leaves
all but STATUS as it was. -/
theorem opcodeErrorsComeInPriority : Obligations.OpcodeErrorsComeInPriority := by
  intro s i hi
  obtain ⟨px, hexec⟩ := exec_opcode hi s
  refine ⟨_, hexec, ?_⟩
  obtain ⟨hpos, e⟩ | ⟨hpos, hlen, e⟩ | ⟨hpos, hlen, hidx, e⟩ | ⟨hpos, hlen, hidx, e⟩ :=
    opcodeUnit_cases (opcodeLength i) px (copies i) s <;> rw [e]
  · exact ⟨fun _ => raised_raiseErr .., by omega, by omega⟩
  · exact ⟨by omega, fun _ _ => raised_raiseErr .., by omega⟩
  · exact ⟨by omega, by omega, fun _ _ => raised_raiseErr ..⟩
  · exact ⟨by omega, by omega, by omega⟩

/-- With a byte and a pixel left, INDEX of a slot that holds its own pixel commits that pixel (R131). -/
theorem exec_index_of_stored {px : Pixel} {s : State} (hslot : cacheLookup s (pixelHash px) = px)
    (hpos : s.pos.toNat + 1 ≤ s.inLen.toNat) (hidx : s.outIndex.toNat + 1 ≤ s.total.toNat) :
    exec (.index (pixelHash px)) s = .next (commit px 1 1 s) := by
  have hunit := opcodeUnit_commits px (Nat.le_refl 1) hpos hidx
  simp only [exec, execIndex, hslot, hunit]

/-- Settles O15: the commit leaves its pixel in that pixel's slot, so INDEX finds it there, commits it again
and stores what the slot holds. -/
theorem indexAfterACommitGivesThePixelAgain : Obligations.IndexAfterACommitGivesThePixelAgain := by
  intro s t i hi ht hdone hpos hidx
  obtain ⟨px, hexec⟩ := exec_opcode hi s
  cases hexec.symm.trans ht
  have hcommit := opcodeUnit_of_not_done hdone
  have hslot : cacheLookup (opcodeUnit (opcodeLength i) px (copies i) s) (pixelHash px) = px := by
    rw [hcommit, cacheLookup_commit]
  have hlast : (opcodeUnit (opcodeLength i) px (copies i) s).lastPixel = px := by
    rw [hcommit, commit_lastPixel]
  rw [hlast]
  exact ⟨_, exec_index_of_stored hslot hpos hidx, rfl, cacheLookup_commit_of_stored hslot 1 1⟩

/-! ## A command that is left alone -/

/-- Nothing holds BLK up (R51, R163): `rst` is released, HOST has no further turn, and the stream port
answers every byte of S. -/
structure Unattended (s : State) : Prop where
  released : s.rst = false
  inbox_nil : s.inbox = []
  answered : ∀ k < s.inLen.toNat, s.stream.read k ≠ none

/-- The bytes of a unit that lies in S stand in the stream. -/
theorem Unattended.placed {s : State} (h : Unattended s) {off n : Nat} (hn : off + n ≤ s.inLen.toNat) :
    ∃ bs : List Byte, bs.length = n ∧ Placed s off bs := by
  refine ⟨List.ofFn fun k : Fin n => (s.stream.read (off + k)).getD 0, List.length_ofFn, fun k hk => ?_⟩
  rw [List.length_ofFn] at hk
  obtain ⟨b, hb⟩ := Option.ne_none_iff_exists'.1 (h.answered (off + k) (by omega))
  simp [hb]

/-- As many bytes as the first of them, the tag, asks for are an opcode (R84). -/
theorem Placed.exists_decodeOpcode {s : State} {off : Nat} {tag : Byte} {bs : List Byte} (h : Placed s off bs)
    (htag : s.stream.read off = some tag) (hn : bs.length = (dispatch tag).length) :
    ∃ i, decodeOpcode bs = .ok (i, []) := by
  cases bs with
  | nil => exact absurd (hn ▸ (dispatch tag).length_pos) (by decide)
  | cons b bs =>
    have hb : tag = b := Option.some.inj (htag.symm.trans (h 0 (Nat.succ_pos _)))
    exact decodeOpcode_isOk (hb ▸ hn)

/-- A unit of BLK keeps it so. -/
theorem Unattended.advances {s t : State} (h : Unattended s) (ht : Advances s t) : Unattended t where
  released := ht.rst.trans h.released
  inbox_nil := ht.inbox.trans h.inbox_nil
  answered := by rw [ht.inLen, ht.stream]; exact h.answered

theorem Unattended.blkUnit_sniff_advances {s : State} (h : Unattended s) (hp : s.phase = .sniff) :
    ∃ t, blkUnit s = .next t ∧ Advances s t := by
  have hi : s.phase ≠ .idle := by simp [hp]
  by_cases hl : s.inLen.toNat < 4
  · exact ⟨_, blkUnit_sniff (due_sniff_short hp hl), advances_complete hi _ s.pos⟩
  · obtain ⟨bs, hn, hplaced⟩ := h.placed (off := 0) (n := 4) (by omega)
    exact ⟨_, blkUnit_sniff (hplaced.due_sniff hn hp (by omega)), advances_complete hi _ s.pos⟩

theorem Unattended.blkUnit_header_advances {s : State} (h : Unattended s) (hp : s.phase = .header) :
    ∃ t, blkUnit s = .next t ∧ Advances s t := by
  by_cases hl : s.inLen.toNat < 14
  · exact ⟨_, blkUnit_short (due_header_short hp hl), advances_raiseErr (by simp [hp]) ..⟩
  · obtain ⟨bs, hn, hplaced⟩ := h.placed (off := 0) (n := 14) (by omega)
    obtain ⟨m, w, ht, c, k, hd⟩ := decodeHeader_isOk hn
    rw [blkUnit_instr (due_header hp (by omega) hplaced hd)]
    exact advances_of_execHeader hp m w ht c k

/-- An opcode that lies in S, tag first, is due and runs as an opcode unit (R110). -/
theorem Unattended.blkUnit_opcode_advances {s : State} (h : Unattended s) (hp : s.phase = .ops) :
    ∃ t, blkUnit s = .next t ∧ Advances s t := by
  have hi : s.phase ≠ .idle := by simp [hp]
  by_cases hin : s.inLen.toNat ≤ s.pos.toNat
  · exact ⟨_, blkUnit_short (due_tag_short hp hin), advances_raiseErr hi ..⟩
  obtain ⟨tag, htag⟩ := Option.ne_none_iff_exists'.1 (h.answered s.pos.toNat (by omega))
  by_cases hl : s.inLen.toNat < s.pos.toNat + (dispatch tag).length
  · exact ⟨_, blkUnit_short (due_opcode_short hp (by omega) htag hl), advances_raiseErr hi ..⟩
  obtain ⟨bs, hn, hplaced⟩ := h.placed (off := s.pos.toNat) (n := (dispatch tag).length) (by omega)
  obtain ⟨i, hd⟩ := hplaced.exists_decodeOpcode htag hn
  obtain ⟨len, px, n, hlen, -, -, -, hexec⟩ := decodeOpcode_unit hd s
  rw [blkUnit_instr (due_opcode hp (by omega) hplaced hd), hexec]
  exact ⟨_, rfl, advances_opcodeUnit hp px n hlen⟩

theorem Unattended.blkUnit_footer_advances {s : State} (h : Unattended s) (hp : s.phase = .footer) :
    ∃ t, blkUnit s = .next t ∧ Advances s t := by
  by_cases hl : s.inLen.toNat < s.pos.toNat + 8
  · exact ⟨_, blkUnit_short (due_footer_short hp hl), advances_raiseErr (by simp [hp]) ..⟩
  · obtain ⟨bs, hn, hplaced⟩ := h.placed (off := s.pos.toNat) (n := 8) (by omega)
    obtain ⟨m, hd⟩ := decodeFooter_isOk hn
    rw [blkUnit_instr (due_footer hp (by omega) hplaced hd)]
    exact advances_of_execFooter hp m

/-- A step is BLK's when nothing holds it up. -/
theorem Unattended.step_eq {s : State} (h : Unattended s) : step s = blkUnit s :=
  BlkMoves.step_eq ⟨h.released, .inl ⟨h.inbox_nil, rfl⟩⟩

/-- While a command runs, every step then advances it. -/
theorem Unattended.step_advances {s : State} (h : Unattended s) (hi : s.phase ≠ .idle) :
    ∃ t, step s = .next t ∧ Advances s t := by
  rw [h.step_eq]
  cases hp : s.phase with
  | idle => exact absurd hp hi
  | sniff => exact h.blkUnit_sniff_advances hp
  | header => exact h.blkUnit_header_advances hp
  | ops => exact h.blkUnit_opcode_advances hp
  | footer => exact h.blkUnit_footer_advances hp

theorem core_run_succ {s t : State} (h : step s = .next t) (n : Nat) :
    Sys2Proof.core.run (n + 1) s = Sys2Proof.core.run n t := by
  have hstep : Sys2Proof.core.step s = .next t := h
  simp only [Host.Core.run, hstep]

/-- A run of `unitsLeft` steps or more ends the command, and past the end BLK changes nothing (R162). -/
theorem Unattended.run_ends (n : Nat) : ∀ {s : State}, Unattended s → unitsLeft s ≤ n →
    (s.phase = .idle → s.done = true) →
    ∃ t, Sys2Proof.core.run n s = .next t ∧ t.phase = .idle ∧ t.done = true := by
  induction n with
  | zero =>
    intro s _ hle hdone
    have hp : s.phase = .idle := by
      by_contra hi
      exact Nat.not_lt.2 hle (unitsLeft_pos hi)
    exact ⟨s, rfl, hp, hdone hp⟩
  | succ n ih =>
    intro s h hle hdone
    by_cases hp : s.phase = .idle
    · rw [core_run_succ (h.step_eq.trans (blkUnit_idle hp))]
      exact ih h (by simp [unitsLeft_idle hp]) hdone
    · obtain ⟨t, ht, hadv⟩ := h.step_advances hp
      have hfewer := hadv.fewer
      rw [core_run_succ ht]
      exact ih (h.advances hadv) (by omega) hadv.ended

/-- Settles O55: at the header unit the bound is `unitsLeft`, and every step of BLK brings it down. -/
theorem decodeEndsWithinTheBound : Obligations.DecodeEndsWithinTheBound := by
  intro s hr hinbox hp hanswered
  have hs : Unattended s := ⟨hr, hinbox, hanswered⟩
  exact hs.run_ends _ (unitsLeft_header hp).le (by simp [hp])

end Sys2Proof.Claims

/-! PROOFS. The RGBA unpacker family (44_rgba_unpacker.md): what a commit leaves in full, channels moved modulo 256, and
RGB, RGBA, DIFF and LUMA with their bytes, their commits and their raises. -/

namespace Sys2Proof.Machine

/-- `u8(x)` is x mod 256, also below 0 (R16). -/
theorem u8_toNat (x : Int) : ((u8 x).toNat : Int) = x % 256 := by
  rw [u8, BitVec.toNat_ofInt, Int.toNat_of_nonneg (Int.emod_nonneg _ (by decide))]
  rfl

/-- An opcode that resolves to a pixel of the last alpha keeps that alpha: a raise keeps last_pixel, and a
commit replaces it by the opcode's pixel. -/
theorem opcodeUnit_alpha {px : Pixel} {s : State} (h : px.a = s.lastPixel.a) (len n : Nat) :
    (opcodeUnit len px n s).lastPixel.a = s.lastPixel.a := by
  obtain ⟨-, e⟩ | ⟨-, -, e⟩ | ⟨-, -, -, e⟩ | ⟨-, -, -, e⟩ := opcodeUnit_cases len px n s <;> rw [e]
  case inr.inr.inr => rw [commit_lastPixel, h]
  all_goals rw [raiseErr_lastPixel]

end Sys2Proof.Machine

namespace Sys2Proof.Claims

open Sys2Proof.Machine

/-! ## What an opcode unit leaves -/

/-- A commit with its bytes in S writes its pixels, its slot, last_pixel, OUT_INDEX, POS and PHASE, and leaves
all else as it was (R116, R129, R141). -/
theorem committed_commit (px : Pixel) (n : Nat) {len : Nat} {s : State}
    (hpos : s.pos.toNat + len ≤ s.inLen.toNat) : Committed s (commit px n len s) px n len where
  lastPixel := rfl
  cache_slot := cacheLookup_commit px n len s
  cache_rest := fun k hk => by rw [cacheLookup_commit_eq, if_neg hk]
  index := rfl
  pos := toNat_add_ofNat hpos
  phase := rfl
  pixels := fun j hj q hq => (writePixels_read _ _ s.sinkAddr_mod _ n _ _).1 j hj q hq rfl
  others := fun a ha => (writePixels_read _ _ s.sinkAddr_mod a n _ _).2 ha
  params := ⟨rfl, rfl, rfl, rfl⟩
  status := ⟨rfl, rfl, rfl, rfl, rfl⟩
  header := ⟨rfl, rfl, rfl, rfl, rfl⟩
  platform := ⟨rfl, rfl, rfl, rfl, rfl, rfl, rfl⟩
  before := rfl

/-- An opcode unit with its bytes in S and its pixels left commits (R116). -/
theorem committed_opcodeUnit (px : Pixel) {len n : Nat} {s : State} (hlen : 1 ≤ len)
    (hpos : s.pos.toNat + len ≤ s.inLen.toNat) (hidx : s.outIndex.toNat + n ≤ s.total.toNat) :
    Committed s (opcodeUnit len px n s) px n len := by
  rw [opcodeUnit_commits px hlen hpos hidx]
  exact committed_commit px n hpos

/-- Without a tag in S an opcode unit raises TruncatedInput(2) (R111). -/
theorem raised_of_tagMissing (len : Nat) (px : Pixel) (n : Nat) {s : State}
    (h : s.inLen.toNat ≤ s.pos.toNat) : Raised s (opcodeUnit len px n s) .truncatedInput 2 := by
  rw [opcodeUnit, if_pos h]
  exact raised_raiseErr .truncatedInput 2 s

/-- With its tag in S but not all its operand bytes an opcode unit raises TruncatedInput(3) (R113). -/
theorem raised_of_operandMissing {len : Nat} (px : Pixel) (n : Nat) {s : State}
    (htag : s.pos.toNat < s.inLen.toNat) (h : s.inLen.toNat < s.pos.toNat + len) :
    Raised s (opcodeUnit len px n s) .truncatedInput 3 := by
  rw [opcodeUnit, if_neg (Nat.not_le.2 htag), if_pos h]
  exact raised_raiseErr .truncatedInput 3 s

/-! ## Channels moved -/

theorem shifted_u8 (old : Byte) (delta : Int) : Shifted (u8 (old.toNat + delta)) old delta :=
  u8_toNat _

/-- `AddDelta` moves each colour modulo 256 by its own delta and keeps alpha (R121). -/
theorem shifted_addDelta (p : Pixel) (dr dg db : Int) :
    Shifted (addDelta p dr dg db).r p.r dr ∧ Shifted (addDelta p dr dg db).g p.g dg ∧
      Shifted (addDelta p dr dg db).b p.b db ∧ (addDelta p dr dg db).a = p.a :=
  ⟨shifted_u8 _ dr, shifted_u8 _ dg, shifted_u8 _ db, rfl⟩

/-! ## The opcodes -/

/-- Settles O7: the opcode unit of 4 bytes on (r, g, b, last alpha). -/
theorem rgbReplacesTheColoursAndKeepsAlpha : Obligations.RgbReplacesTheColoursAndKeepsAlpha := by
  intro s r g b rest
  exact ⟨decode_rgb dispatch_rgb r g b rest,
    fun hpos hidx => ⟨_, rfl, committed_opcodeUnit _ (by decide) hpos hidx⟩,
    fun htag hops => ⟨_, rfl, raised_of_operandMissing _ 1 htag hops⟩⟩

/-- Settles O8: the opcode unit of 5 bytes on (r, g, b, a). -/
theorem rgbaReplacesTheWholePixel : Obligations.RgbaReplacesTheWholePixel := by
  intro s r g b a rest
  exact ⟨decode_rgba dispatch_rgba r g b a rest,
    fun hpos hidx => ⟨_, rfl, committed_opcodeUnit _ (by decide) hpos hidx⟩,
    fun htag hops => ⟨_, rfl, raised_of_operandMissing _ 1 htag hops⟩⟩

/-- Settles O10: the opcode unit of 1 byte on last_pixel moved by the three fields less 2. -/
theorem diffMovesEachChannel : Obligations.DiffMovesEachChannel := by
  intro s rr gg bb rest
  obtain ⟨htag, hrr, hgg, hbb⟩ := diff_tag rr gg bb
  refine ⟨?_, fun hpos hidx => ?_, fun hend => ⟨_, rfl, raised_of_tagMissing 1 _ 1 hend⟩⟩
  · rw [decode_diff htag, hrr, hgg, hbb]
  · exact ⟨_, _, rfl, committed_opcodeUnit _ (by decide) hpos hidx, shifted_addDelta s.lastPixel _ _ _⟩

/-- Settles O11: the opcode unit of 2 bytes on last_pixel moved by dg = G - 32, with red and blue biased by dg. -/
theorem lumaMovesEachChannel : Obligations.LumaMovesEachChannel := by
  intro s gg rr bb rest
  obtain ⟨htag, hgg⟩ := luma_tag gg
  obtain ⟨hrr, hbb⟩ := luma_operand rr bb
  refine ⟨?_, fun hpos hidx => ?_, fun hpos hops => ⟨_, rfl, raised_of_operandMissing _ 1 hpos hops⟩⟩
  · rw [decode_luma htag, hgg, hrr, hbb]
  · exact ⟨_, _, rfl, committed_opcodeUnit _ (by decide) hpos hidx, shifted_addDelta s.lastPixel _ _ _⟩

/-- Settles O16: the pixels of RGB, DIFF, LUMA and RUN take their alpha from last_pixel. -/
theorem onlyRgbaAndIndexChangeAlpha : Obligations.OnlyRgbaAndIndexChangeAlpha := by
  intro s t i ht hop hrgba hindex
  cases i with
  | rgb | diff | luma | run =>
    cases ht
    apply opcodeUnit_alpha
    rfl
  | rgba r g b a => exact absurd rfl (hrgba r g b a)
  | index k => exact absurd rfl (hindex k)
  | header | footer | cmdSniff | cmdDecode | cmdNoneBoth | ackDone => exact absurd rfl hop

end Sys2Proof.Claims

/-! PROOFS. The colour cache family (45_color_cache.md): the bound of the hash sum, INDEX with its byte, its commit and
its raise, and that a decode starts from the cache and last_pixel of R108 whatever they were. -/

namespace Sys2Proof.Machine

/-- The hash sum is greatest at (255, 255, 255, 255) (R127). -/
theorem hashSum_le (p : Pixel) : hashSum p ≤ 6630 := by
  have hr := p.r.isLt
  have hg := p.g.isLt
  have hb := p.b.isLt
  have ha := p.a.isLt
  unfold hashSum
  omega

/-- The initialisation overwrites the cache and last_pixel, so what they held before the header leaves no trace
(R108, R132). -/
theorem initDecode_loadHeader_withCache (w h : Word) (c k : Byte) (s : State) (cache : Vector Pixel 64)
    (last : Pixel) :
    initDecode (loadHeader w h c k { s with cache := cache, lastPixel := last }) =
      initDecode (loadHeader w h c k s) := rfl

end Sys2Proof.Machine

namespace Sys2Proof.Claims

open Sys2Proof.Machine

/-- Settles O9: the opcode unit of 1 byte on the pixel that slot k holds before the commit. -/
theorem indexEmitsTheCacheSlot : Obligations.IndexEmitsTheCacheSlot := by
  intro s k rest
  obtain ⟨htag, hk⟩ := index_tag k
  refine ⟨?_, fun hpos hidx => ?_, fun hend => ⟨_, rfl, raised_of_tagMissing 1 _ 1 hend⟩⟩
  · rw [decode_index htag, hk]
  · exact ⟨_, rfl, committed_opcodeUnit _ (by decide) hpos hidx⟩

/-- Settles O21: from both states the unit answers the initialisation of the loaded header, which overwrites
the two fields they differ in. -/
theorem decodeForgetsTheOldCache : Obligations.DecodeForgetsTheOldCache := by
  intro s w h c k cache last hl hcap hfit
  calc exec (.header Config.magic w h c k) { s with cache := cache, lastPixel := last }
    _ = .next (initDecode (loadHeader w h c k { s with cache := cache, lastPixel := last })) :=
      execHeader_of_fits (s := { s with cache := cache, lastPixel := last }) hl hcap hfit c k
    _ = .next (initDecode (loadHeader w h c k s)) := by rw [initDecode_loadHeader_withCache]
    _ = exec (.header Config.magic w h c k) s := (execHeader_of_fits hl hcap hfit c k).symm

/-- Settles O14: the slot is the hash sum modulo 64, which reducing a summand first does not change. -/
theorem hashIsTheWeightedSumMod64 : Obligations.HashIsTheWeightedSumMod64 := by
  refine ⟨fun p => ?_, by decide, by decide, by decide⟩
  have hslot : (pixelHash p).toNat =
      (p.r.toNat * 3 + p.g.toNat * 5 + p.b.toNat * 7 + p.a.toNat * 11) % 64 := pixelHash_toNat p
  refine ⟨hslot, hashSum_le p, by decide, ?products, ?partialSums⟩
  case products => omega
  case partialSums => omega

end Sys2Proof.Claims

/-! PROOFS. The run expander family (46_run_expander.md): RUN with its byte, its commit and its raise. -/

namespace Sys2Proof.Claims

open Sys2Proof.Machine

/-- Settles O12: the opcode unit of 1 byte on field + 1 copies of last_pixel. A run that would pass TOTAL raises the
last of an opcode's three errors. -/
theorem runRepeatsTheLastPixel : Obligations.RunRepeatsTheLastPixel := by
  intro s n rest
  obtain ⟨htag, hn⟩ := run_tag n
  obtain ⟨t, hexec, -, -, hraised⟩ := opcodeErrorsComeInPriority s (.run n) Nat.one_ne_zero
  refine ⟨fun hfield => ?_, fun hpos hidx => ?_, fun hpos hover => ⟨t, hexec, hraised hpos hover⟩⟩
  · rw [decode_run (htag hfield), hn]
  · exact ⟨_, rfl, committed_opcodeUnit s.lastPixel (by decide) hpos hidx⟩

end Sys2Proof.Claims

/-! PROOFS. The footer validator and the pixel writer (47_footer_validator.md, 48_pixel_writer.md): the footer's bytes
against the end marker's, the layouts as bijections, and that a command has written only the words before OUT_INDEX. -/

namespace Sys2Proof

theorem markerBytes_getElem? (m : BitVec 64) {j : Nat} (h : j < 8) :
    (markerBytes m)[j]? = some (markerByte m j) := by
  interval_cases j <;> rfl

/-- The number of eight bytes has those bytes (R73). -/
theorem markerBytes_be64 (f0 f1 f2 f3 f4 f5 f6 f7 : Byte) :
    markerBytes (be64 f0 f1 f2 f3 f4 f5 f6 f7) = [f0, f1, f2, f3, f4, f5, f6, f7] := by
  simp [markerBytes, markerByte_be64]

/-- Footers are equal when their bytes are. -/
theorem markerBytes_inj {m n : BitVec 64} : markerBytes m = markerBytes n ↔ m = n := by
  refine ⟨fun h => ?_, congrArg markerBytes⟩
  simp only [markerBytes, List.cons.injEq, and_true] at h
  obtain ⟨h0, h1, h2, h3, h4, h5, h6, h7⟩ := h
  rw [← be64_markerByte m, ← be64_markerByte n, h0, h1, h2, h3, h4, h5, h6, h7]

/-- The end marker's bytes: seven times 00, then 01 (R73). -/
theorem markerBytes_endMarker : markerBytes Config.endMarker = [0, 0, 0, 0, 0, 0, 0, 1] := by decide

end Sys2Proof

namespace Sys2Proof.Machine

/-! ## The footer -/

/-- The byte that differs after bytes that agree is the first mismatch (R136). -/
theorem firstMismatch_of_take {m : BitVec 64} {j : Nat} (hj : j < 8)
    (htake : (markerBytes m).take j = (markerBytes Config.endMarker).take j)
    (hne : (markerBytes m)[j]? ≠ (markerBytes Config.endMarker)[j]?) : firstMismatch m = some j := by
  have hbefore : ∀ i < j, markerByte m i = markerByte Config.endMarker i := fun i hi => by
    have hbyte := congrArg (·[i]?) htake
    simpa only [List.getElem?_take_of_lt hi, markerBytes_getElem? _ (hi.trans hj), Option.some.injEq] using hbyte
  have hdiffers : markerByte m j ≠ markerByte Config.endMarker j := by
    simpa only [markerBytes_getElem? _ hj, ne_eq, Option.some.injEq] using hne
  rw [firstMismatch, List.find?_range_eq_some]
  exact ⟨by simpa using hdiffers, List.mem_range.2 hj, fun i hi => by simpa using hbefore i hi⟩

/-! ## The layouts -/

/-- The packed pixel's bytes are its channels in order (R40). -/
theorem wordBytes_packWord (p : Pixel) : wordBytes (packWord p) = [p.r, p.g, p.b, p.a] := by
  obtain ⟨hr, hg, hb, ha⟩ := wordByte_be32 p.r p.g p.b p.a
  simp only [wordBytes, packWord, be32] at hr hg hb ha ⊢
  rw [hr, hg, hb, ha]

/-- A pixel can be read off its packing, and every word packs the pixel of its bytes. -/
theorem packWord_bijective : Function.Bijective packWord := by
  constructor
  · intro p q h
    have hbytes := congrArg wordBytes h
    rw [wordBytes_packWord, wordBytes_packWord] at hbytes
    cases p
    cases q
    simpa using hbytes
  · exact fun w => ⟨⟨wordByte w 0, wordByte w 1, wordByte w 2, wordByte w 3⟩, be32_wordByte w⟩

/-! ## The sink when a command began -/

theorem BlkEffect.outBase_eq {s t : State} (h : BlkEffect s t) : t.outBase = s.outBase := by
  obtain ⟨-, hbase, -⟩ := h.keepsParams
  rw [State.outBase, State.outBase, hbase]

theorem BlkEffect.sinkBefore_eq {s t : State} (h : BlkEffect s t) : t.sinkBefore = s.sinkBefore := by
  cases h with
  | hold | sniff | raised | tooLarge | headerDone | committed | footerDone => rfl

/-- BLK never takes OUT_INDEX back: the header unit sets it to the 0 that it is (R39, R108). -/
theorem State.Inv.outIndex_mono {s t : State} (h : s.Inv) (ht : BlkEffect s t) :
    s.outIndex.toNat ≤ t.outIndex.toNat := by
  cases ht with
  | hold | sniff | raised | tooLarge | footerDone => exact Nat.le_refl _
  | headerDone hp =>
    obtain ⟨-, hindex, -⟩ := h.header_clear hp
    simp [hindex]
  | committed hp px hlen hn hpos hidx =>
    obtain ⟨hcap, -⟩ := h.fits (.inl hp)
    rw [commit_outIndex, toNat_add_ofNat (hidx.trans hcap)]
    exact Nat.le_add_right ..

end Sys2Proof.Machine

namespace Sys2Proof.Claims

open Sys2Proof.Machine

/-- A completion that moves POS leaves all but POS and STATUS as it was (R95). -/
theorem completed_complete (s : State) (pos : Word) : Completed s (complete { s with pos := pos }) :=
  ⟨rfl, rfl, rfl, rfl, rfl, ⟨rfl, rfl, rfl, rfl⟩, ⟨rfl, rfl, rfl, rfl, rfl⟩, rfl, rfl, rfl,
    ⟨rfl, rfl, rfl, rfl, rfl, rfl, rfl⟩, fun _ => rfl, rfl⟩

/-- InvalidEndMarker's detail is the place of the first byte that differs, from 1 on (R136). -/
theorem raised_invalidEndMarker {j : Nat} (h : j < 8) (s : State) :
    Raised s (raiseErr .invalidEndMarker (BitVec.ofNat 4 (j + 1)) s) .invalidEndMarker (j + 1) := by
  have hdetail : (BitVec.ofNat 4 (j + 1)).toNat = j + 1 := by rw [BitVec.toNat_ofNat]; omega
  simpa only [hdetail] using raised_raiseErr .invalidEndMarker (BitVec.ofNat 4 (j + 1)) s

/-- Settles O22: the unit's three outcomes come under conditions that exclude each other, and the bytes
decide them: they are the end marker's, or the first that differs is the first mismatch. -/
theorem footerIsComparedByteByByte : Obligations.FooterIsComparedByteByByte := by
  intro s f0 f1 f2 f3 f4 f5 f6 f7
  rw [← markerBytes_be64 f0 f1 f2 f3 f4 f5 f6 f7, ← markerBytes_endMarker]
  generalize be64 f0 f1 f2 f3 f4 f5 f6 f7 = m
  have hdecode := decodeOfEncodeGivesTheInstruction (.footer m) nofun
  obtain ⟨hl, e⟩ | ⟨i, hl, hi, e⟩ | ⟨hl, hm, e⟩ := execFooter_cases m s
  · exact ⟨m, _, hdecode, e, fun _ => raised_raiseErr .., by omega, by omega⟩
  · refine ⟨m, _, hdecode, e, by omega, fun _ hbytes => ?_, fun _ j hj htake hne => ?_⟩
    · cases hi.symm.trans ((firstMismatch_none m).2 (markerBytes_inj.1 hbytes))
    · cases hi.symm.trans (firstMismatch_of_take hj htake hne)
      exact raised_invalidEndMarker hj s
  · refine ⟨m, _, hdecode, e, by omega, fun _ _ => ⟨completed_complete s _, rfl, ?_⟩,
      fun _ j hj htake hne => absurd (hm ▸ rfl) hne⟩
    exact toNat_add_ofNat hl

/-- Settles O17: the packing is a bijection, and each other layout is one of words after it. -/
theorem pixelLayoutIsABijection : Obligations.PixelLayoutIsABijection := by
  refine ⟨fun l => ?_, fun p => ⟨wordBytes_packWord p, packWord_toNat p⟩⟩
  cases l with
  | rgba8Bytes => exact packWord_bijective
  | other k => exact (Config.otherLayout k).bijective.comp packWord_bijective

/-- The effect of a step of BLK. -/
theorem BlkMoves.blkEffect {s b t : State} (h : BlkMoves s b) (ht : step s = .next t) : BlkEffect b t :=
  blkEffect_of_blkUnit (h.step_eq.symm.trans ht)

/-- The state BLK moves from differs from `s` at most in HOST's coming turns. -/
theorem BlkMoves.eq_withInbox {s b : State} (h : BlkMoves s b) : ∃ l, b = { s with inbox := l } := by
  obtain ⟨-, ⟨-, rfl⟩ | ⟨rest, -, rfl⟩⟩ := h
  · exact ⟨b.inbox, rfl⟩
  · exact ⟨rest, rfl⟩

/-- A unit of BLK that changes a sink byte changes one between the old OUT_INDEX and the new one. -/
theorem OnlyPrefixWritten.blkEffect {s t : State} (hs : OnlyPrefixWritten s) (h : s.Inv)
    (ht : BlkEffect s t) : OnlyPrefixWritten t := by
  intro a ha
  have hmono := h.outIndex_mono ht
  rw [ht.outBase_eq] at ha
  have hkept : t.sink.read a = s.sink.read a := by
    by_contra hne
    obtain ⟨-, hlo, hhi, -⟩ := h.sink_changed ht hne
    omega
  rw [hkept, ht.sinkBefore_eq]
  exact hs a (by omega)

/-- Settles O48: CMD_DECODE records the sink as it is, and every unit of BLK keeps the claim. -/
theorem wordsFromOutIndexOnAreUntouched : Obligations.WordsFromOutIndexOnAreUntouched := by
  constructor
  · intro s t ie hp ht
    cases ht
    rw [startDecode_idle (s := setIe ie s) hp]
    exact fun _ _ => rfl
  · intro s b t hinv hb hs ht
    have heff := hb.blkEffect ht
    obtain ⟨l, rfl⟩ := hb.eq_withInbox
    have hbefore : OnlyPrefixWritten { s with inbox := l } := hs
    exact hbefore.blkEffect { hinv with } heff

end Sys2Proof.Claims

/-! PROOFS. The exceptions family (60_exceptions.md): when irq rises and falls, that errors are precise, and that an
idle block keeps everything. -/

namespace Sys2Proof.Machine

/-- BLK writes no CTRL.IE (R92). -/
theorem BlkEffect.ie_eq {s t : State} (h : BlkEffect s t) : t.ie = s.ie := by
  cases h with
  | hold | sniff | raised | tooLarge | headerDone | committed | footerDone => rfl

/-- DONE rises with the unit that ends the command, and with no other (R95, R146). -/
theorem BlkEffect.done_iff_idle {s t : State} (h : BlkEffect s t) (hp : s.phase ≠ .idle)
    (hd : s.done = false) : t.done = true ↔ t.phase = .idle := by
  cases h with
  | hold => simp [hd, hp]
  | sniff | raised | tooLarge | footerDone => exact ⟨fun _ => rfl, fun _ => rfl⟩
  | headerDone =>
    rw [initDecode_phase]
    split <;> simp [hd]
  | committed =>
    rw [commit_phase]
    split <;> simp [hd, hp]

/-- A unit that ends the command with OK = 0 is the raise of a legal result, and only the header unit may have
loaded its fields before it (R107, R146, R148). -/
theorem BlkEffect.raised_of_failed {s t : State} (h : BlkEffect s t) (hp : s.phase ≠ .idle)
    (ht : t.phase = .idle) (hok : t.ok = false) :
    ∃ e d l, t = raiseErr e d l ∧ e ≠ .noError ∧ legalResult e d = true ∧
      (l = s ∨ s.phase = .header ∧ ∃ w k c cs, l = loadHeader w k c cs s) := by
  cases h with
  | hold => exact absurd ht hp
  | sniff | footerDone => cases hok
  | raised hi hs he hd => exact ⟨_, _, s, rfl, he, hd, .inl rfl⟩
  | tooLarge hh w k c cs hd => exact ⟨_, _, _, rfl, by decide, hd, .inr ⟨hh, w, k, c, cs, rfl⟩⟩
  | headerDone =>
    rw [initDecode_phase] at ht
    split at ht <;> cases ht
  | committed hops =>
    rw [commit_phase, hops] at ht
    split at ht <;> cases ht

/-- While idle and while `rst` is asserted BLK's turn changes nothing (R162, R163). -/
theorem blkTurn_of_idle_or_rst {s : State} (h : s.phase = .idle ∨ s.rst = true) : blkTurn s = .next s := by
  unfold blkTurn
  split
  · rfl
  · next hr => exact blkUnit_idle (h.resolve_right hr)

end Sys2Proof.Machine

namespace Sys2Proof.Claims

open Sys2Proof.Machine

/-- Settles O37: irq is DONE and IE; the starts and the acknowledgement clear DONE, and BLK sets it with the
command's last unit. -/
theorem interruptFollowsDoneAndIe : Obligations.InterruptFollowsDoneAndIe := by
  refine ⟨fun s t ie hp ht => ?start, fun s t ht => ?acknowledge, fun s t ie hdone ht => ?enable,
    fun s b t hb hp hd ht => ?ended⟩
  case start =>
    obtain ht | ht := ht <;> cases ht
    · rw [startSniff_idle (s := setIe ie s) hp]
      rfl
    · rw [startDecode_idle (s := setIe ie s) hp]
      rfl
  case acknowledge =>
    cases ht
    rfl
  case enable =>
    cases ht
    simp [State.irq, hdone]
  case ended =>
    have heff := hb.blkEffect ht
    obtain ⟨l, rfl⟩ := hb.eq_withInbox
    rw [State.irq, Bool.and_eq_true, heff.done_iff_idle hp hd, heff.ie_eq]

/-- Settles O46: such a step is a raise, which writes STATUS alone, after at most the header's field load. -/
theorem errorsArePrecise : Obligations.ErrorsArePrecise := by
  intro s b t hb hp ht hi hok
  have heff := hb.blkEffect ht
  obtain ⟨l, rfl⟩ := hb.eq_withInbox
  obtain ⟨e, d, l, rfl, he, hd, rfl | ⟨hh, w, k, c, cs, rfl⟩⟩ := heff.raised_of_failed hp hi hok
  · exact ⟨rfl, he, hd, ⟨rfl, rfl, rfl, rfl⟩, ⟨fun _ => rfl, rfl⟩, ⟨rfl, rfl, rfl, rfl⟩, rfl,
      fun _ => ⟨rfl, rfl, rfl, rfl, rfl⟩⟩
  · exact ⟨rfl, he, hd, ⟨rfl, rfl, rfl, rfl⟩, ⟨fun _ => rfl, rfl⟩, ⟨rfl, rfl, rfl, rfl⟩, rfl,
      fun hne => absurd hh hne⟩

/-- Settles O40: the turn is BLK's, with HOST's `blk` taken off the list if there was one. -/
theorem idleBlockKeepsEverything : Obligations.IdleBlockKeepsEverything := by
  refine fun s hs => ⟨fun hi => ?_, fun rest hi => ?_⟩
  · rw [step_of_inbox_nil hi, blkTurn_of_idle_or_rst hs]
  · rw [step_of_inbox_cons hi]
    exact blkTurn_of_idle_or_rst (s := { s with inbox := rest }) hs

end Sys2Proof.Claims

/-! PROOFS. The reset family (70_reset_and_hazards.md): the reset values, the release of `rst`, and what its assertion
leaves of a running command. -/

namespace Sys2Proof.Machine

/-- BLK writes neither the reset input nor HOST's coming turns. -/
theorem BlkEffect.rst_inbox_eq {s t : State} (h : BlkEffect s t) : t.rst = s.rst ∧ t.inbox = s.inbox := by
  cases h with
  | hold | sniff | raised | tooLarge | headerDone | committed | footerDone => exact ⟨rfl, rfl⟩

/-- Every unit of BLK answers a next state. -/
theorem blkUnit_isNext (s : State) : ∃ t, blkUnit s = .next t := by
  unfold blkUnit
  split
  · exact ⟨_, rfl⟩
  · exact ⟨_, rfl⟩
  · exact ⟨_, rfl⟩
  · exact ⟨_, rfl⟩
  · exact Claims.noInstructionStopsTheMachine _ s

theorem runAhead_idle {s : State} (h : s.phase = .idle) (n : Nat) : runAhead n s = s := by
  cases n with
  | zero => rfl
  | succ n => simp only [runAhead, if_pos h]

theorem runAhead_succ {s t : State} (hp : s.phase ≠ .idle) (ht : blkUnit s = .next t) (n : Nat) :
    runAhead (n + 1) s = runAhead n t := by
  simp only [runAhead, if_neg hp, ht]

/-- With `rst` released and no turn of HOST left, running ahead is the machine's own run (R164): past the
command's end neither changes anything. -/
theorem core_run_eq_runAhead (n : Nat) : ∀ {s : State}, s.rst = false → s.inbox = [] →
    Sys2Proof.core.run n s = .next (runAhead n s) := by
  induction n with
  | zero => exact fun _ _ => rfl
  | succ n ih =>
    intro s hr hi
    obtain ⟨t, ht⟩ := blkUnit_isNext s
    have hstep : step s = .next t := by rw [step_of_inbox_nil hi, blkTurn_of_released hr, ht]
    obtain ⟨hrst, hinbox⟩ := (blkEffect_of_blkUnit ht).rst_inbox_eq
    rw [Claims.core_run_succ hstep, ih (hrst.trans hr) (hinbox.trans hi)]
    by_cases hp : s.phase = .idle
    · cases (blkUnit_idle hp).symm.trans ht
      rw [runAhead_idle hp, runAhead_idle hp]
    · rw [runAhead_succ hp ht]

theorem abandon_of_decoding {s : State} (h : s.decoding) :
    abandon s = { s with
      sink := mixWords s.outBase s.draws s.sinkBefore (commandSink s) s.total.toNat s.sink
      draws := s.draws + s.total.toNat } := by
  obtain hp | hp := h <;> simp only [abandon, hp]

theorem abandon_of_not_decoding {s : State} (h : ¬ s.decoding) : abandon s = s :=
  abandon_of_idle_sniff_header (fun hp => h (.inl hp)) (fun hp => h (.inr hp))

theorem rstAssert_of_released {s : State} (h : s.rst = false) :
    rstAssert s = { resetRegisters (abandon s) with rst := true } := by
  simp [rstAssert, h]

theorem rstAssert_of_asserted {s : State} (h : s.rst = true) : rstAssert s = s := if_pos h

theorem rstRelease_of_asserted {s : State} (h : s.rst = true) :
    rstRelease s = { resetRegisters s with rst := false } := if_pos h

end Sys2Proof.Machine

namespace Sys2Proof.Claims

open Sys2Proof.Machine

/-- The reset values are R163's, at either level of the reset input. -/
theorem registersReset_resetRegisters (s : State) (r : Bool) :
    RegistersReset { resetRegisters s with rst := r } where
  ctrl := by simp [State.ctrlWord, resetRegisters]
  status := by simp [State.statusWord, State.busy, Phase.code, ErrKind.code, resetRegisters]
  phase := rfl
  inLen := rfl
  outBase := by simp [State.outBase, resetRegisters]
  outCap := rfl
  pos := rfl
  width := rfl
  height := rfl
  hdrInfo := by simp [State.hdrInfo, resetRegisters]
  total := rfl
  outIndex := rfl
  lastPixel := rfl
  irq := rfl

/-- The state a turn of HOST acts on differs from `s` in HOST's coming turns alone. -/
theorem HostMoves.eq_withInbox {s b : State} {u : Turn} (h : HostMoves s u b) :
    ∃ l, b = { s with inbox := l } := by
  obtain ⟨rest, -, hb⟩ := h
  exact ⟨rest, hb⟩

/-- Settles O50: the release sets the reset values and no memory. -/
theorem releasedResetLeavesEveryRegisterZero : Obligations.ReleasedResetLeavesEveryRegisterZero := by
  intro s b hr hb
  have hstep : step s = .next (rstRelease b) := hb.step_eq
  obtain ⟨l, rfl⟩ := hb.eq_withInbox
  rw [rstRelease_of_asserted (s := { s with inbox := l }) hr] at hstep
  exact ⟨_, hstep, rfl, registersReset_resetRegisters .., rfl, fun _ => rfl⟩

/-- Settles O51, value by value. -/
theorem resetStateIsTheSpecs : Obligations.ResetStateIsTheSpecs :=
  ⟨rfl, rfl, rfl, rfl, rfl, rfl, rfl, rfl, rfl, rfl, rfl, rfl, rfl, rfl, rfl⟩

/-- Settles O53: the memories are empty, there is no image, and the block is at rest with a clear result. -/
theorem invariantHoldsAtReset : Obligations.InvariantHoldsAtReset := by
  obtain ⟨hstream, hsink, hbefore⟩ := reset_memories_wf
  have hbase : State.reset.BaseInv := .of_no_image hstream hsink hbefore rfl rfl rfl rfl
  exact hbase.inv_of_idle rfl rfl nofun

/-- Each word of the mix is, as a whole, the one from before the command or the command's (R164). -/
theorem mixWords_word (s : State) (draws : Nat) (before after : Memory) {m : Memory} (h : m.wf) {n i : Nat}
    (fit : s.outBase.toNat + 4 * n ≤ 2 ^ 32) (hi : i < n) :
    (∀ q < 4, (mixWords s.outBase draws before after n m).read (s.outBase.toNat + 4 * i + q) =
      before.read (s.outBase.toNat + 4 * i + q)) ∨
    (∀ q < 4, (mixWords s.outBase draws before after n m).read (s.outBase.toNat + 4 * i + q) =
      after.read (s.outBase.toNat + 4 * i + q)) := by
  have hword q (hq : q < 4) :=
    (mixWords_read s draws before after h n fit (s.outBase.toNat + 4 * i + q)).1 i hi (by omega) (by omega)
  cases hbit : Config.freeBit (draws + i) with
  | true => exact .inl fun q hq => by rw [hword q hq, hbit]; rfl
  | false => exact .inr fun q hq => by rw [hword q hq, hbit]; rfl

/-- Settles O52: the assertion sets the reset values after the command is abandoned; past the header that mixes
the image's words from the sink before the command and the one that the command's own run leaves. -/
theorem abandonedDecodeLeavesOldOrNewWords : Obligations.AbandonedDecodeLeavesOldOrNewWords := by
  refine ⟨fun s b hinv hr hdec hb => ?decoding, fun s b hr hdec hb => ?otherwise, fun s b hr hb => ?asserted⟩
  all_goals
    have hstep : step s = .next (rstAssert b) := hb.step_eq
    obtain ⟨l, rfl⟩ := hb.eq_withInbox
  case decoding =>
    obtain ⟨-, hfit⟩ := hinv.fits hdec
    rw [rstAssert_of_released (s := { s with inbox := l }) hr,
      abandon_of_decoding (s := { s with inbox := l }) hdec] at hstep
    exact ⟨_, _, _, hstep, core_run_eq_runAhead (2 + s.inLen.toNat) (s := { s with inbox := [] }) hr rfl, rfl,
      registersReset_resetRegisters .., rfl,
      fun i hi => mixWords_word s s.draws s.sinkBefore _ hinv.sink_wf hfit hi,
      fun a ha => (mixWords_read s s.draws s.sinkBefore _ hinv.sink_wf s.total.toNat hfit a).2 ha⟩
  case otherwise =>
    rw [rstAssert_of_released (s := { s with inbox := l }) hr,
      abandon_of_not_decoding (s := { s with inbox := l }) hdec] at hstep
    exact ⟨_, hstep, rfl, registersReset_resetRegisters .., rfl, fun _ => rfl⟩
  case asserted =>
    rw [hstep, rstAssert_of_asserted (s := { s with inbox := l }) hr]

end Sys2Proof.Claims
